-- ==== Sys2Proof/Word.lean ====
section
/-! DEFINITION. The one word type of the core: the byte (00_scope.md R8 and R12). -/

namespace Sys2Proof

/-- A byte: 8 bits, bit 7 the most significant, read as an unsigned number 0 to 255 (R12). Registers, memory cells, the
PC, immediates and addresses are all bytes (R8). -/
abbrev Byte := BitVec 8

end Sys2Proof
end

