-- ==== Sys2Proof/Syntax.lean ====
section
/-! DEFINITION. The instructions: one constructor per row of spec/opcode_table.json (30_encoding.md R64), in the table's order.
A register operand is kept as the byte the encoding holds (R61): the core checks it, and never masks it, when the
instruction runs (R66, 40_cycle.md R84; log 6). -/

namespace Sys2Proof

/-- A register-index operand byte; the legal values are 0 to 7 (R61). -/
abbrev RegByte := Byte

/-- The position of an operand byte inside its instruction: byte 1 at PC+1 or byte 2 at PC+2 (R60). -/
inductive Position where
  | byte1
  | byte2
deriving DecidableEq, Repr

/-- The 13 instructions of R64. -/
inductive Instr where
  | ldi (r : RegByte) (imm : Byte)
  | prn (r : RegByte)
  | hlt
  | mul (a b : RegByte)
  | add (a b : RegByte)
  | push (r : RegByte)
  | pop (r : RegByte)
  | call (r : RegByte)
  | ret
  | jmp (r : RegByte)
  | cmp (a b : RegByte)
  | jeq (r : RegByte)
  | jne (r : RegByte)
deriving DecidableEq, Repr

end Sys2Proof
end

