-- ==== Sys2Proof/Decode.lean ====
section
/-! DEFINITION. The decoder and the encoder (30_encoding.md R60 to R68). The decoder matches the whole opcode byte (R62, R85)
and is total on any bytes; the encoder is written from the table of R64 on its own, so that their agreement says
something. -/

namespace Sys2Proof

/-- Why bytes are no instruction. -/
inductive DecodeError where
  /-- The opcode byte is none of the 13 (R65). -/
  | unrecognizedOpcode
  /-- Operand byte `k` of the instruction (1 or 2) is not there (40_cycle.md R81). -/
  | missingOperand (k : Nat)
deriving DecidableEq, Repr

/-- Format R: one operand byte, at PC+1 (R60). -/
def decodeOne (build : Byte → Instr) : List Byte → Except DecodeError Instr
  | [] => .error (.missingOperand 1)
  | r :: _ => .ok (build r)

/-- Formats RR and RI: two operand bytes, at PC+1 and PC+2 (R60). The lower missing one is reported (R81). -/
def decodeTwo (build : Byte → Byte → Instr) : List Byte → Except DecodeError Instr
  | [] => .error (.missingOperand 1)
  | [_] => .error (.missingOperand 2)
  | a :: b :: _ => .ok (build a b)

/-- Decode the opcode byte `op` with the bytes that follow it in memory (R64, R68). An illegal opcode is refused before
any operand byte is looked at (R85); bytes after the instruction's last operand are not looked at. -/
def decode (op : Byte) (operands : List Byte) : Except DecodeError Instr :=
  if op = 0x82 then decodeTwo .ldi operands
  else if op = 0x47 then decodeOne .prn operands
  else if op = 0x01 then .ok .hlt
  else if op = 0xA2 then decodeTwo .mul operands
  else if op = 0xA0 then decodeTwo .add operands
  else if op = 0x45 then decodeOne .push operands
  else if op = 0x46 then decodeOne .pop operands
  else if op = 0x50 then decodeOne .call operands
  else if op = 0x11 then .ok .ret
  else if op = 0x54 then decodeOne .jmp operands
  else if op = 0xA7 then decodeTwo .cmp operands
  else if op = 0x55 then decodeOne .jeq operands
  else if op = 0x56 then decodeOne .jne operands
  else .error .unrecognizedOpcode

/-- The opcode byte of an instruction (R64). -/
def Instr.opcode : Instr → Byte
  | .ldi _ _ => 0b10000010
  | .prn _ => 0b01000111
  | .hlt => 0b00000001
  | .mul _ _ => 0b10100010
  | .add _ _ => 0b10100000
  | .push _ => 0b01000101
  | .pop _ => 0b01000110
  | .call _ => 0b01010000
  | .ret => 0b00010001
  | .jmp _ => 0b01010100
  | .cmp _ _ => 0b10100111
  | .jeq _ => 0b01010101
  | .jne _ => 0b01010110

/-- The operand bytes of an instruction, in ascending address order (R60, R61). -/
def Instr.operandBytes : Instr → List Byte
  | .ldi r imm => [r, imm]
  | .prn r => [r]
  | .hlt => []
  | .mul a b => [a, b]
  | .add a b => [a, b]
  | .push r => [r]
  | .pop r => [r]
  | .call r => [r]
  | .ret => []
  | .jmp r => [r]
  | .cmp a b => [a, b]
  | .jeq r => [r]
  | .jne r => [r]

/-- The bytes of an instruction, the opcode byte first (R60). -/
def encode (i : Instr) : List Byte := i.opcode :: i.operandBytes

/-- The length of an instruction in bytes, as the table of R64 gives it. -/
def Instr.length : Instr → Nat
  | .ldi _ _ => 3
  | .prn _ => 2
  | .hlt => 1
  | .mul _ _ => 3
  | .add _ _ => 3
  | .push _ => 2
  | .pop _ => 2
  | .call _ => 2
  | .ret => 1
  | .jmp _ => 2
  | .cmp _ _ => 3
  | .jeq _ => 2
  | .jne _ => 2

/-- The three bytes of an instruction numbered as spec/opcode_table.json numbers its bits: the first byte holds bits 7..0,
the second bits 15..8, the third bits 23..16; every bit from `nbits` up is 0. -/
def tableBytes (nbits w : Nat) : List Byte :=
  let v := w % 2 ^ nbits
  [BitVec.ofNat 8 v, BitVec.ofNat 8 (v / 256), BitVec.ofNat 8 (v / 65536)]

/-- What the decoder reads from an instruction given as the opcode table's number. -/
def decodeTableWord (nbits w : Nat) : Option Instr :=
  match tableBytes nbits w with
  | op :: operands =>
    match decode op operands with
    | .ok i => some i
    | .error _ => none
  | [] => none

end Sys2Proof
end

