-- ==== Sys2Proof/Config.lean ====
section
/-! DEFINITION. What is fixed for the machine: the parameters of 00_scope.md R8, and the one value the spec leaves open. -/

namespace Sys2Proof.Config

/-- MEM_SIZE: the number of memory cells (R8). -/
def memSize : Nat := 256

/-- The highest address, which is also the highest PC value (R8, R9). -/
def maxAddr : Nat := 255

/-- SP_RESET (R8). -/
def spReset : Byte := 0xF4

/-- PC_RESET (R8). -/
def pcReset : Byte := 0

/-- HALT_EXIT_STATUS (R8). -/
def haltExitStatus : Int := 0

/-- The sign of FAULT_EXIT_STATUS: uninterpreted (log 7). -/
opaque faultExitNegative : Bool

/-- The distance of FAULT_EXIT_STATUS from the nonzero integer nearest to 0 with its sign: uninterpreted (log 7). -/
opaque faultExitSize : Nat

/-- FAULT_EXIT_STATUS (R8, R177): OPEN in the spec, any nonzero integer. Every nonzero integer is the value for exactly
one choice of the two uninterpreted constants, so nothing but its being nonzero can be proved of it (log 7). -/
def faultExitStatus : Int :=
  if faultExitNegative then Int.negSucc faultExitSize else Int.ofNat (faultExitSize + 1)

end Sys2Proof.Config
end

