-- ==== Sys2Proof/Machine/State.lean ====
section
/-! DEFINITION. The state of the core: the tuple of 10_state.md R34 and nothing else, and its value after reset (R35). -/

namespace Sys2Proof.Machine

/-- The flags register FL: exactly one of four values, with no bit layout (R25, R27). -/
inductive Flag where
  /-- The reset value, held until the first CMP (R25). -/
  | clear
  | equal
  | lessThan
  | greaterThan
deriving DecidableEq, Repr

/-- What an address past 255 was needed for (60_exceptions.md R162). -/
inductive AddrKind where
  | operandFetch
  | nextPc
  | returnAddress
deriving DecidableEq, Repr

/-- The direction in which SP would have left 0..255 (60_exceptions.md R164). -/
inductive Dir where
  | decrement
  | increment
deriving DecidableEq, Repr

/-- The faults of 60_exceptions.md R160, each with its `info`. A fault is no `Outcome.fault` of this model: the core takes
it, as the next state whose status is FAULTED (R160; log 1). Each is SAFE: the spec itself says that the core stops. -/
inductive Fault where
  /-- The opcode byte is none of the 13. Raised by the step, before any operand fetch (R161). Safe. -/
  | unrecognizedOpcode
  /-- The ALU was asked for an operation it does not have. Raised by nothing: the ALU select has exactly three values
  (R165, 42_alu.md R116; log 8). Safe. -/
  | unrecognizedALUOperation (select : Nat)
  /-- An address past 255 is needed. Raised by the step for operand bytes, by every sequential advance and by CALL for its
  return address (R162). Safe. -/
  | addressOutOfRange (kind : AddrKind) (addr : Nat)
  /-- A register-index byte is 8 to 255. Raised by every instruction that has such a byte (R163). Safe. -/
  | badRegisterIndex (position : Position) (value : Byte)
  /-- SP would leave 0..255. Raised by PUSH, CALL (decrement) and POP, RET (increment) (R164). Safe. -/
  | stackPointerOutOfRange (sp : Byte) (dir : Dir)
deriving DecidableEq, Repr

/-- What has no meaning in the model. -/
inductive Refusal where
  /-- An instruction without a meaning yet, by its mnemonic. Raised by no arm of `exec`. Safe. -/
  | notModelled (mnemonic : String)
  /-- A program image of more than 256 bytes: not a valid launch (70_reset_and_hazards.md R182). Raised by `launch` only.
  Safe: the spec says that such an image is refused. -/
  | imageTooLong (n : Nat)
deriving DecidableEq, Repr

/-- The record of a fault: the faulting instruction's address and opcode byte, and the fault with its info (R160). The
record's `code` is `Fault.code` of the fault. -/
structure FaultRecord where
  pc : Byte
  ir : Byte
  fault : Fault
deriving DecidableEq, Repr

/-- The run status (R32). -/
inductive Status where
  | running
  | halted
  | faulted (record : FaultRecord)
deriving DecidableEq, Repr

/-- Memory: the cells that do not hold 0, by strictly rising address (`Memory.wf` in Ops.lean; log 5). -/
abbrev Memory := List Host.Cell

/-- The whole state of the core (R34). -/
structure State where
  /-- The 256 cells (R29). -/
  mem : Memory
  /-- R0 to R7; R7 is SP (R20, R21). -/
  regs : Vector Byte 8
  /-- The address of the opcode byte of the instruction being executed (R24). -/
  pc : Byte
  /-- The flags register (R25). -/
  fl : Flag
  /-- The run status (R32). -/
  status : Status
  /-- The output stream, oldest value first (R33). -/
  out : List Byte
deriving DecidableEq, Repr

/-- The state right after reset, with the empty image (R35, R181, R182; log 3). -/
def State.reset : State where
  mem := []
  regs := #v[0, 0, 0, 0, 0, 0, 0, Config.spReset]
  pc := Config.pcReset
  fl := .clear
  status := .running
  out := []

end Sys2Proof.Machine
end

