-- ==== Sys2Proof/Machine/Ops.lean ====
section
/-! DEFINITION. The named operations every instruction is written with: the primitives of 00_scope.md R13, over memory, the
register file, the PC, the output stream and the status; the pushes and pops of 43_stack.md R131; and taking a fault
(60_exceptions.md R160), written once. The core has no return from a fault (R169), so none stands here. -/

namespace Sys2Proof.Machine

/-- What every operation of the core answers. -/
abbrev Outcome := Host.Outcome State Fault Refusal

/-- What a handler makes of its working copy: the new working copy, or the fault it raises (R14). -/
abbrev Handler := Except Fault State

/-! ### Memory -/

/-- What a cell that the list does not hold reads as: memory is zeroed at reset (10_state.md R35, R181). -/
def Memory.unlisted : Byte := 0

/-- The canonical form: addresses strictly rising and below 256, and no cell equal to what an unlisted one reads as. -/
abbrev Memory.wf (m : Memory) : Prop :=
  m.Pairwise (fun c d => c.1 < d.1) ∧ ∀ c ∈ m, c.1 < Config.memSize ∧ c.2 ≠ Memory.unlisted

/-- The byte in cell `a`. -/
def Memory.get : Memory → Nat → Byte
  | [], _ => Memory.unlisted
  | (b, v) :: m, a => if a = b then v else Memory.get m a

/-- A cell to list in front of others, unless it holds what an unlisted one reads as. -/
def Memory.put (a : Nat) (v : Byte) (m : Memory) : Memory :=
  if v = Memory.unlisted then m else (a, v) :: m

/-- Store byte `v` in cell `a`, keeping the canonical form. -/
def Memory.set : Memory → Nat → Byte → Memory
  | [], a, v => Memory.put a v []
  | (b, w) :: m, a, v =>
    if a < b then Memory.put a v ((b, w) :: m)
    else if a = b then Memory.put a v m
    else (b, w) :: Memory.set m a v

/-- `MemRead(a, 1)` (R13, 20_memory.md R41). An address is a byte, so it is always in range (R42). -/
def State.memRead (s : State) (a : Byte) : Byte := s.mem.get a.toNat

/-- `MemWrite(a, 1, v)` (R13, 20_memory.md R41). -/
def State.memWrite (s : State) (a v : Byte) : State := { s with mem := s.mem.set a.toNat v }

/-! ### Registers -/

/-- `x[i]`: read a general register (R13). No register is hardwired (10_state.md R22). -/
def State.reg (s : State) (i : Fin 8) : Byte := s.regs[i.val]

/-- `x[i] <- v`: write a general register (R13). -/
def State.setReg (s : State) (i : Fin 8) (v : Byte) : State := { s with regs := s.regs.set i.val v }

/-- SP_INDEX (00_scope.md R8). -/
def spIndex : Fin 8 := 7

/-- `SP`, another name for `x[7]` (R13, 10_state.md R21). -/
def State.sp (s : State) : Byte := s.reg spIndex

/-- `SP <- v`. -/
def State.setSp (s : State) (v : Byte) : State := s.setReg spIndex v

/-! ### Flags, PC, output, status -/

/-- `FL <- f` (R13). -/
def State.setFl (s : State) (f : Flag) : State := { s with fl := f }

/-- `pc <- t`: a control transfer (R13, 40_cycle.md R89). -/
def State.jump (s : State) (t : Byte) : State := { s with pc := t }

/-- `emit(v)`: append a value to the output stream (R13, 10_state.md R33). -/
def State.emit (s : State) (v : Byte) : State := { s with out := s.out ++ [v] }

/-- `halt`: the status becomes HALTED and the PC stays (R13, 44_control.md R140). -/
def State.halt (s : State) : State := { s with status := .halted }

/-- The sequential advance of 40_cycle.md R87: the next PC is computed as a natural number and must not be above 255 (R88). -/
def advance (len : Nat) (w : State) : Handler :=
  if w.pc.toNat + len ≤ Config.maxAddr then .ok { w with pc := BitVec.ofNat 8 (w.pc.toNat + len) }
  else .error (.addressOutOfRange .nextPc (w.pc.toNat + len))

/-- The return address of a 2-byte CALL, which must fit in a byte (44_control.md R143). -/
def returnAddress (s : State) : Except Fault Byte :=
  if s.pc.toNat + 2 ≤ Config.maxAddr then .ok (BitVec.ofNat 8 (s.pc.toNat + 2))
  else .error (.addressOutOfRange .returnAddress (s.pc.toNat + 2))

/-! ### The stack pointer -/

/-- SP moves down by one before a push (43_stack.md R130, R131). SP never wraps (60_exceptions.md R164). -/
def decSp (w : State) : Handler :=
  if 1 ≤ w.sp.toNat then .ok (w.setSp (BitVec.ofNat 8 (w.sp.toNat - 1)))
  else .error (.stackPointerOutOfRange w.sp .decrement)

/-- SP moves up by one after a pop (43_stack.md R132, R131). SP never wraps (60_exceptions.md R164). -/
def incSp (w : State) : Handler :=
  if w.sp.toNat + 1 ≤ Config.maxAddr then .ok (w.setSp (BitVec.ofNat 8 (w.sp.toNat + 1)))
  else .error (.stackPointerOutOfRange w.sp .increment)

/-! ### Faults and the end of an instruction -/

/-- The cause code of a fault, a label that no instruction can read (60_exceptions.md R160). -/
def Fault.code : Fault → Nat
  | .unrecognizedOpcode => 1
  | .unrecognizedALUOperation _ => 2
  | .addressOutOfRange _ _ => 3
  | .badRegisterIndex _ _ => 4
  | .stackPointerOutOfRange _ _ => 5

/-- The `code` of a fault record (R160). -/
def FaultRecord.code (r : FaultRecord) : Nat := r.fault.code

/-- Taking a fault: the status becomes FAULTED with the record, and everything else keeps the value it had before the
instruction (60_exceptions.md R160, R168; 00_scope.md R14). `s` is the state before the instruction. -/
def raiseFault (s : State) (ir : Byte) (f : Fault) : Outcome :=
  .next { s with status := .faulted { pc := s.pc, ir := ir, fault := f } }

/-- The end of an instruction with opcode byte `ir` that began in `s`: the working copy becomes the new state, or the
fault is taken and the working copy is thrown away (R14). -/
def commit (s : State) (ir : Byte) : Handler → Outcome
  | .ok w => .next w
  | .error f => raiseFault s ir f

/-- A core that is HALTED or FAULTED does nothing when it is asked for a step (40_cycle.md R90, 10_state.md R32; log 2). -/
def idle (s : State) : Outcome := .next s

/-- `exit_status` (00_scope.md R11, 60_exceptions.md R177): none while the core runs. -/
def Status.exitStatus : Status → Option Int
  | .running => none
  | .halted => some Config.haltExitStatus
  | .faulted _ => some Config.faultExitStatus

end Sys2Proof.Machine
end

