-- ==== Sys2Proof/Machine/Flags.lean ====
section
/-! DEFINITION. The flag computation of the core: CMP is the only instruction that writes FL (10_state.md R26). -/

namespace Sys2Proof.Machine

/-- CMP's flag: the unsigned comparison of two bytes (42_alu.md R114, R115). -/
def compareFlag (x y : Byte) : Flag :=
  if x = y then .equal else if x.toNat < y.toNat then .lessThan else .greaterThan

/-- JEQ jumps exactly on EQUAL and JNE exactly on everything else, CLEAR included (44_control.md R146). -/
def Flag.isEqual : Flag → Bool
  | .equal => true
  | .clear | .lessThan | .greaterThan => false

end Sys2Proof.Machine
end

