-- ==== Sys2Proof/Machine/Operands.lean ====
section
/-! DEFINITION. The operand forms: a register-index byte, used as an index and never masked (30_encoding.md R63, R66), and LDI's
immediate byte, which is used as it stands (R61) and needs no operation. -/

namespace Sys2Proof.Machine

/-- The register a register-index byte names, or BadRegisterIndex with the byte's position and value (40_cycle.md R84). -/
def regOperand (p : Position) (v : RegByte) : Except Fault (Fin 8) :=
  if h : v.toNat < 8 then .ok ⟨v.toNat, h⟩ else .error (.badRegisterIndex p v)

/-- The register-index byte that names register `i` (10_state.md R20). -/
def regByte (i : Fin 8) : RegByte := BitVec.ofNat 8 i.val

end Sys2Proof.Machine
end

