-- ==== Sys2Proof/Machine/Alu.lean ====
section
/-! DEFINITION. The ALU and its three instructions, ADD, MUL and CMP (42_alu.md). -/

namespace Sys2Proof.Machine

/-- The ALU's operation select: exactly three values, so no value of it is unrecognized (R110, R116). -/
inductive AluOp where
  | add
  | mul
  | cmp
deriving DecidableEq, Repr

/-- What the ALU returns: an 8-bit result or a flag value (R110). -/
inductive AluResult where
  | value (v : Byte)
  | flag (f : Flag)
deriving DecidableEq, Repr

/-- The ALU: sum and product are formed as natural numbers and narrowed to their low 8 bits (R113); the comparison is
unsigned (R114). -/
def alu : AluOp → Byte → Byte → AluResult
  | .add, x, y => .value (BitVec.ofNat 8 (x.toNat + y.toNat))
  | .mul, x, y => .value (BitVec.ofNat 8 (x.toNat * y.toNat))
  | .cmp, x, y => .flag (compareFlag x y)

/-- The handler writes an 8-bit result to `x[a]` and a flag value to FL (R110). -/
def State.aluWrite (w : State) (a : Fin 8) : AluResult → State
  | .value v => w.setReg a v
  | .flag f => w.setFl f

/-- The handler shared by the three ALU instructions (format RR, R110). -/
def aluHandler (op : AluOp) (a b : RegByte) (s : State) : Handler := do
  let ra ← regOperand .byte1 a
  let rb ← regOperand .byte2 b
  advance 3 (s.aluWrite ra (alu op (s.reg ra) (s.reg rb)))

/-- MUL a,b: `x[a] <- (x[a] * x[b]) mod 256` (R112). -/
def execMul (a b : RegByte) (s : State) : Outcome :=
  commit s (Instr.mul a b).opcode (aluHandler .mul a b s)

/-- ADD a,b: `x[a] <- (x[a] + x[b]) mod 256` (R111). -/
def execAdd (a b : RegByte) (s : State) : Outcome :=
  commit s (Instr.add a b).opcode (aluHandler .add a b s)

/-- CMP a,b: FL gets EQUAL, LESS_THAN or GREATER_THAN (R114). -/
def execCmp (a b : RegByte) (s : State) : Outcome :=
  commit s (Instr.cmp a b).opcode (aluHandler .cmp a b s)

end Sys2Proof.Machine
end

