-- ==== Sys2Proof/Machine/Control.lean ====
section
/-! DEFINITION. HLT, CALL, RET, JMP, JEQ and JNE (44_control.md). -/

namespace Sys2Proof.Machine

/-- HLT: the status becomes HALTED; nothing else changes (R140). -/
def execHlt (s : State) : Outcome :=
  commit s Instr.hlt.opcode (.ok s.halt)

/-- CALL r: the return address is checked before SP (60_exceptions.md R166), pushed, and the PC is set to `x[r]`, read
after the push (R143). -/
def execCall (r : RegByte) (s : State) : Outcome :=
  commit s (Instr.call r).opcode do
    let rs ← regOperand .byte1 r
    let ra ← returnAddress s
    let w ← decSp s
    let w := w.memWrite w.sp ra
    .ok (w.jump (w.reg rs))

/-- RET: the byte at SP becomes the PC, and SP moves up (R145). -/
def execRet (s : State) : Outcome :=
  commit s Instr.ret.opcode do
    let t := s.memRead s.sp
    let w ← incSp s
    .ok (w.jump t)

/-- JMP r: `pc <- x[r]` (R142). -/
def execJmp (r : RegByte) (s : State) : Outcome :=
  commit s (Instr.jmp r).opcode do
    let rs ← regOperand .byte1 r
    .ok (s.jump (s.reg rs))

/-- The end of a conditional jump: to the target, or on to the next instruction (R147, R148). -/
def branch (taken : Bool) (rs : Fin 8) (s : State) : Handler :=
  if taken then .ok (s.jump (s.reg rs)) else advance 2 s

/-- JEQ r: jump if FL is EQUAL. The register byte is checked even when the jump is not taken (R147). -/
def execJeq (r : RegByte) (s : State) : Outcome :=
  commit s (Instr.jeq r).opcode do
    let rs ← regOperand .byte1 r
    branch s.fl.isEqual rs s

/-- JNE r: jump if FL is not EQUAL (R148). -/
def execJne (r : RegByte) (s : State) : Outcome :=
  commit s (Instr.jne r).opcode do
    let rs ← regOperand .byte1 r
    branch (!s.fl.isEqual) rs s

end Sys2Proof.Machine
end

