-- ==== Sys2Proof/Machine/LoadOutput.lean ====
section
/-! DEFINITION. LDI and PRN (41_ldi_prn.md). -/

namespace Sys2Proof.Machine

/-- LDI r,imm: `x[r] <- imm` (R100). -/
def execLdi (r : RegByte) (imm : Byte) (s : State) : Outcome :=
  commit s (Instr.ldi r imm).opcode do
    let rd ← regOperand .byte1 r
    advance 3 (s.setReg rd imm)

/-- PRN r: `emit(x[r])` (R103). -/
def execPrn (r : RegByte) (s : State) : Outcome :=
  commit s (Instr.prn r).opcode do
    let rs ← regOperand .byte1 r
    advance 2 (s.emit (s.reg rs))

end Sys2Proof.Machine
end

