-- ==== Sys2Proof/Machine/Stack.lean ====
section
/-! DEFINITION. PUSH and POP (43_stack.md). The effects run in the order written, each reading what the earlier ones wrote
(00_scope.md R14, 70_reset_and_hazards.md R188). -/

namespace Sys2Proof.Machine

/-- PUSH r: SP moves down, then `mem[SP] <- x[r]`, read after the decrement (R130). -/
def execPush (r : RegByte) (s : State) : Outcome :=
  commit s (Instr.push r).opcode do
    let rs ← regOperand .byte1 r
    let w ← decSp s
    advance 2 (w.memWrite w.sp (w.reg rs))

/-- POP r: `x[r] <- mem[SP]`, then SP, read after that write, moves up (R132). -/
def execPop (r : RegByte) (s : State) : Outcome :=
  commit s (Instr.pop r).opcode do
    let rd ← regOperand .byte1 r
    let w ← incSp (s.setReg rd (s.memRead s.sp))
    advance 2 w

end Sys2Proof.Machine
end

