-- ==== Sys2Proof/Machine/Fetch.lean ====
section
/-! DEFINITION. The fetch unit (40_cycle.md R80 to R82), the loader's hand-over of an image (70_reset_and_hazards.md R181, R182), and
placing one instruction where the next step fetches it. -/

namespace Sys2Proof.Machine

/-- `ir <- MemRead(pc, 1)` (R80). -/
def State.fetchOpcode (s : State) : Byte := s.memRead s.pc

/-- The byte at `pc + k`, where that address exists (R81). -/
def State.operandByte (s : State) (k : Nat) : Option Byte :=
  if s.pc.toNat + k ≤ Config.maxAddr then some (s.mem.get (s.pc.toNat + k)) else none

/-- The bytes after the opcode byte that an instruction can have as operands: at most two, fewer at the end of memory,
where they do not wrap to address 0 (R81). The decoder takes from them what the instruction has; looking at a byte that
it does not have has no effect (20_memory.md R46; log 10). -/
def State.fetchOperands (s : State) : List Byte :=
  match s.operandByte 1, s.operandByte 2 with
  | some a, some b => [a, b]
  | some a, none => [a]
  | none, _ => []

/-- The fault a refusal of the decoder is: an unknown opcode byte (60_exceptions.md R161), or an operand byte past the end
of memory, with the address that does not exist (R162). -/
def decodeFault (s : State) : DecodeError → Fault
  | .unrecognizedOpcode => .unrecognizedOpcode
  | .missingOperand k => .addressOutOfRange .operandFetch (s.pc.toNat + k)

/-- The step in which the bytes at the PC are no instruction (40_cycle.md R81, R85). -/
def raiseDecode (s : State) (e : DecodeError) : Outcome := raiseFault s s.fetchOpcode (decodeFault s e)

/-- Place bytes in memory from address `a` up; a byte past the end of memory has no cell and is left out. -/
def State.placeBytes (s : State) (a : Nat) : List Byte → State
  | [] => s
  | v :: vs => ({ s with mem := if a ≤ Config.maxAddr then s.mem.set a v else s.mem } : State).placeBytes (a + 1) vs

/-- The reset sequence with the loader's image (R181): `image` goes to addresses 0 up, in a state that is otherwise the
reset state. An image of more than 256 bytes is refused, not truncated (R182). -/
def launch (image : List Byte) : Outcome :=
  if image.length ≤ Config.memSize then .next (State.reset.placeBytes 0 image)
  else .refused (.imageTooLong image.length)

/-- The instruction given as the opcode table's number, placed at the PC of a core that is RUNNING (log 11). -/
def State.placeTableWord (s : State) (nbits w : Nat) : State :=
  ({ s with status := .running } : State).placeBytes s.pc.toNat (tableBytes nbits w)

end Sys2Proof.Machine
end

