-- ==== Sys2Proof/Machine/Step.lean ====
section
/-! DEFINITION. One step of the core (40_cycle.md R90): one whole instruction (00_scope.md R10). -/

namespace Sys2Proof.Machine

/-- A RUNNING core fetches, decodes and runs the instruction at the PC, or takes the fault of an opcode or operand byte
that is not there; a stopped core does nothing (R90). -/
def step (s : State) : Host.Outcome State Fault Refusal :=
  match s.status with
  | .running =>
    match decode s.fetchOpcode s.fetchOperands with
    | .ok i => exec i s
    | .error e => raiseDecode s e
  | .halted => idle s
  | .faulted _ => idle s

/-- The state in which the next step fetches and runs the instruction given as the opcode table's number (log 11). -/
def State.withFetchWord (s : State) (nbits w : Nat) : State := s.placeTableWord nbits w

end Sys2Proof.Machine
end

