-- ==== Sys2Proof/Machine/Console.lean ====
section
/-! DEFINITION. The console text the host makes of the output stream (41_ldi_prn.md R104). It is no state of the core and nothing
reads it (log 12). -/

namespace Sys2Proof.Machine

/-- The ASCII decimal digit of `d`, 0 to 9. -/
def digitChar (d : Nat) : Char := Char.ofNat (48 + d)

/-- The decimal digits of a byte value, most significant first, with no sign, no leading zeros and no padding (R104). -/
def decimalDigits (n : Nat) : List Char :=
  if n < 10 then [digitChar n]
  else if n < 100 then [digitChar (n / 10), digitChar (n % 10)]
  else [digitChar (n / 100), digitChar (n / 10 % 10), digitChar (n % 10)]

/-- One line of the console: the digits and a newline, LF (R104). -/
def consoleLine (v : Byte) : List Char := decimalDigits v.toNat ++ ['\n']

/-- The console text of an output stream: one line for each value, in order (R104). -/
def consoleText (out : List Byte) : List Char := out.flatMap consoleLine

end Sys2Proof.Machine
end

