-- ==== Sys2Proof/WellFormed.lean ====
section
/-! DEFINITION. When an instruction is well formed: every register-index byte names a register (30_encoding.md R66). LDI's
immediate is never checked (R61). An ill-formed instruction is still an instruction of the core: running it raises
BadRegisterIndex (40_cycle.md R84). -/

namespace Sys2Proof

/-- A register-index byte names a register: it is 0 to 7 (R61, R66). -/
def RegByte.names (r : RegByte) : Bool := decide (r.toNat ≤ 7)

/-- The register-index bytes of an instruction, in ascending byte order (40_cycle.md R83). -/
def Instr.regBytes : Instr → List (Position × RegByte)
  | .ldi r _ => [(.byte1, r)]
  | .prn r => [(.byte1, r)]
  | .hlt => []
  | .mul a b => [(.byte1, a), (.byte2, b)]
  | .add a b => [(.byte1, a), (.byte2, b)]
  | .push r => [(.byte1, r)]
  | .pop r => [(.byte1, r)]
  | .call r => [(.byte1, r)]
  | .ret => []
  | .jmp r => [(.byte1, r)]
  | .cmp a b => [(.byte1, a), (.byte2, b)]
  | .jeq r => [(.byte1, r)]
  | .jne r => [(.byte1, r)]

/-- Every register-index byte of the instruction names a register. -/
def Instr.wf (i : Instr) : Bool := i.regBytes.all fun pr => RegByte.names pr.2

end Sys2Proof
end

