-- ==== Sys2Proof/Safety.lean ====
section
/-! DEFINITION. The terms claims are stated in: what a safe state is, the invariant every step keeps, frames, the ordered list of
checks of 60_exceptions.md R166, and the register accesses of 10_state.md R22. The machine uses none of them. -/

namespace Sys2Proof.Machine

/-! ### Safe states -/

/-- A run is safe as long as no fault has been taken: the status is RUNNING or HALTED (R32). -/
def State.Safe (s : State) : Prop := ∀ r, s.status ≠ .faulted r

/-- The info of a fault record lies in the ranges of the table of R160. -/
def FaultRecord.Legal (r : FaultRecord) : Prop :=
  match r.fault with
  | .unrecognizedOpcode => True
  | .unrecognizedALUOperation _ => False
  | .addressOutOfRange _ addr => addr = 256
  | .badRegisterIndex _ value => 8 ≤ value.toNat
  | .stackPointerOutOfRange sp .decrement => sp = 0
  | .stackPointerOutOfRange sp .increment => sp = 255

/-- The invariant: memory is in canonical form; a HALTED core's PC is at a HLT (44_control.md R140); a FAULTED core's
record names the instruction its PC is still at, with legal info (R160). -/
structure State.Inv (s : State) : Prop where
  memWf : s.mem.wf
  haltedAtHlt : s.status = .halted → s.memRead s.pc = 0x01
  recordAtPc : ∀ r, s.status = .faulted r → r.pc = s.pc ∧ r.ir = s.memRead s.pc ∧ r.Legal

/-! ### Frames -/

/-- Every register but those listed holds what it held. -/
def State.RegsSameExcept (s t : State) (ks : List (Fin 8)) : Prop := ∀ j, j ∉ ks → t.reg j = s.reg j

/-- Every byte of memory reads as before. -/
def State.MemSame (s t : State) : Prop := ∀ a : Byte, t.memRead a = s.memRead a

/-- Every byte of memory but the one at `b` reads as before. -/
def State.MemSameExcept (s t : State) (b : Byte) : Prop := ∀ a : Byte, a ≠ b → t.memRead a = s.memRead a

/-- FL, the status and the output stream are unchanged. -/
def State.FlStatusOutSame (s t : State) : Prop := t.fl = s.fl ∧ t.status = s.status ∧ t.out = s.out

/-! ### Bytes at the PC and the state a fault leaves -/

/-- The byte `k` places after the opcode byte (40_cycle.md R81); for use where that address exists. -/
def State.operand (s : State) (k : Nat) : Byte := s.mem.get (s.pc.toNat + k)

/-- `s` with the status FAULTED by `f` at the instruction the PC is at (R160). -/
def State.faultedBy (s : State) (f : Fault) : State :=
  { s with status := .faulted { pc := s.pc, ir := s.memRead s.pc, fault := f } }

/-! ### The checks of one instruction, in order (R166) -/

/-- One check: whether it passes, and the fault it raises if it does not. -/
structure Check where
  passes : Bool
  fault : Fault

/-- Operand byte `k` exists (R81). -/
def State.fetchCheck (s : State) (k : Nat) : Check :=
  ⟨decide (s.pc.toNat + k ≤ 255), .addressOutOfRange .operandFetch (s.pc.toNat + k)⟩

/-- A register-index byte is 0 to 7 (R84). -/
def regCheck (p : Position) (v : Byte) : Check := ⟨decide (v.toNat ≤ 7), .badRegisterIndex p v⟩

/-- The sequential next PC is in memory (R88). -/
def State.nextPcCheck (s : State) (len : Nat) : Check :=
  ⟨decide (s.pc.toNat + len ≤ 255), .addressOutOfRange .nextPc (s.pc.toNat + len)⟩

/-- CALL's return address fits in a byte (R143). -/
def State.returnCheck (s : State) : Check :=
  ⟨decide (s.pc.toNat + 2 ≤ 255), .addressOutOfRange .returnAddress (s.pc.toNat + 2)⟩

/-- SP can be decremented (R164). -/
def State.decCheck (s : State) : Check := ⟨decide (s.sp ≠ 0), .stackPointerOutOfRange s.sp .decrement⟩

/-- An SP of value `v` can be incremented (R164). -/
def incCheck (v : Byte) : Check := ⟨decide (v ≠ 255), .stackPointerOutOfRange v .increment⟩

/-- The checks of the instruction at the PC, in the order of R166, written from the Exceptions part of each instruction's
rule. POP R7 increments the byte it popped (43_stack.md R132). -/
def State.checks (s : State) : List Check :=
  let reg1 := regCheck .byte1 (s.operand 1)
  let reg2 := regCheck .byte2 (s.operand 2)
  match s.memRead s.pc with
  | 0x82 => [s.fetchCheck 1, s.fetchCheck 2, reg1, s.nextPcCheck 3]
  | 0x47 => [s.fetchCheck 1, reg1, s.nextPcCheck 2]
  | 0x01 => []
  | 0xA2 => [s.fetchCheck 1, s.fetchCheck 2, reg1, reg2, s.nextPcCheck 3]
  | 0xA0 => [s.fetchCheck 1, s.fetchCheck 2, reg1, reg2, s.nextPcCheck 3]
  | 0x45 => [s.fetchCheck 1, reg1, s.decCheck, s.nextPcCheck 2]
  | 0x46 => [s.fetchCheck 1, reg1, incCheck (if s.operand 1 = 7 then s.memRead s.sp else s.sp), s.nextPcCheck 2]
  | 0x50 => [s.fetchCheck 1, reg1, s.returnCheck, s.decCheck]
  | 0x11 => [incCheck s.sp]
  | 0x54 => [s.fetchCheck 1, reg1]
  | 0xA7 => [s.fetchCheck 1, s.fetchCheck 2, reg1, reg2, s.nextPcCheck 3]
  | 0x55 => [s.fetchCheck 1, reg1] ++ if s.fl = .equal then [] else [s.nextPcCheck 2]
  | 0x56 => [s.fetchCheck 1, reg1] ++ if s.fl = .equal then [s.nextPcCheck 2] else []
  | _ => [⟨false, .unrecognizedOpcode⟩]

/-- The fault of the first check that fails. -/
def firstFailed : List Check → Option Fault
  | [] => none
  | c :: cs => if c.passes then firstFailed cs else some c.fault

/-! ### Register accesses (the table of 10_state.md R22) -/

/-- The instruction, in this state, reads register `j`. -/
def readsReg (s : State) (j : Fin 8) : Instr → Prop
  | .ldi _ _ => False
  | .prn r => r = regByte j
  | .hlt => False
  | .mul a b => a = regByte j ∨ b = regByte j
  | .add a b => a = regByte j ∨ b = regByte j
  | .push r => j = spIndex ∨ r = regByte j
  | .pop _ => j = spIndex
  | .call r => j = spIndex ∨ r = regByte j
  | .ret => j = spIndex
  | .jmp r => r = regByte j
  | .cmp a b => a = regByte j ∨ b = regByte j
  | .jeq r => s.fl = .equal ∧ r = regByte j
  | .jne r => s.fl ≠ .equal ∧ r = regByte j

/-- The instruction writes register `j`. -/
def writesReg (j : Fin 8) : Instr → Prop
  | .ldi r _ => r = regByte j
  | .prn _ => False
  | .hlt => False
  | .mul a _ => a = regByte j
  | .add a _ => a = regByte j
  | .push _ => j = spIndex
  | .pop r => r = regByte j ∨ j = spIndex
  | .call _ => j = spIndex
  | .ret => j = spIndex
  | .jmp _ => False
  | .cmp _ _ => False
  | .jeq _ => False
  | .jne _ => False

/-! ### States that no program can tell apart (44_control.md R146) -/

/-- The two states are equal but for FL, and neither or both of them hold EQUAL. -/
def State.FlAlike (s t : State) : Prop := t = { s with fl := t.fl } ∧ (s.fl = .equal ↔ t.fl = .equal)

/-- The instructions that read FL (10_state.md R26). -/
def readsFl : Instr → Bool
  | .jeq _ | .jne _ => true
  | .ldi _ _ | .prn _ | .hlt | .mul _ _ | .add _ _ | .push _ | .pop _ | .call _ | .ret | .jmp _ | .cmp _ _ => false

/-- The instructions that read memory beyond their own fetch (20_memory.md R40). -/
def readsMem : Instr → Bool
  | .pop _ | .ret => true
  | .ldi _ _ | .prn _ | .hlt | .mul _ _ | .add _ _ | .push _ | .call _ | .jmp _ | .cmp _ _ | .jeq _ | .jne _ => false

/-! ### Repeated addition (42_alu.md R117) -/

/-- Run ADD `n` times, each time at address 0. -/
def addTimes (a b : RegByte) : Nat → State → Option State
  | 0, s => some s
  | n + 1, s =>
    match exec (.add a b) { s with pc := 0 } with
    | .next t => addTimes a b n t
    | .fault _ => none
    | .refused _ => none

end Sys2Proof.Machine
end

