-- ==== Sys2Proof/Certificates/Slice0/Obligations.lean ====
section
/-! DEFINITION. The statements for the provers. Each docstring names the rule of spec/ it formalises, or says that it is derived. -/

open Sys2Proof Sys2Proof.Machine

/-! ### What each instruction does when it completes: result and frame (derived from the instruction's rule) -/

/-- LDI r,v: `x[r] = v`, PC + 3, nothing else (R101). -/
def Obligations.LdiLoadsImmediate : Prop :=
  ∀ (r : Fin 8) (imm : Byte) (s : State), s.pc.toNat + 3 ≤ 255 →
    ∃ t, exec (.ldi (regByte r) imm) s = .next t ∧ t.reg r = imm ∧ t.pc.toNat = s.pc.toNat + 3 ∧
      s.RegsSameExcept t [r] ∧ s.MemSame t ∧ s.FlStatusOutSame t

/-- PRN r: the value of x[r] is appended to `out`, PC + 2, nothing else (R103). -/
def Obligations.PrnEmitsRegister : Prop :=
  ∀ (r : Fin 8) (s : State), s.pc.toNat + 2 ≤ 255 →
    ∃ t, exec (.prn (regByte r)) s = .next t ∧ t.out = s.out ++ [s.reg r] ∧ t.pc.toNat = s.pc.toNat + 2 ∧
      s.RegsSameExcept t [] ∧ s.MemSame t ∧ t.fl = s.fl ∧ t.status = s.status

/-- HLT: the status becomes HALTED; the PC, the registers, memory, FL and `out` stay (R140). -/
def Obligations.HltOnlyHalts : Prop :=
  ∀ s : State, ∃ t, exec .hlt s = .next t ∧ t.status = .halted ∧ t.pc = s.pc ∧
    s.RegsSameExcept t [] ∧ s.MemSame t ∧ t.fl = s.fl ∧ t.out = s.out

/-- ADD a,b: x[a] is the sum modulo 256, PC + 3, nothing else; FL is unchanged on overflow too (R111, R113). -/
def Obligations.AddWrapsIntoFirstRegister : Prop :=
  ∀ (a b : Fin 8) (s : State), s.pc.toNat + 3 ≤ 255 →
    ∃ t, exec (.add (regByte a) (regByte b)) s = .next t ∧
      (t.reg a).toNat = ((s.reg a).toNat + (s.reg b).toNat) % 256 ∧ t.pc.toNat = s.pc.toNat + 3 ∧
      s.RegsSameExcept t [a] ∧ s.MemSame t ∧ s.FlStatusOutSame t

/-- MUL a,b: x[a] is the product modulo 256, PC + 3, nothing else (R112, R113). -/
def Obligations.MulWrapsIntoFirstRegister : Prop :=
  ∀ (a b : Fin 8) (s : State), s.pc.toNat + 3 ≤ 255 →
    ∃ t, exec (.mul (regByte a) (regByte b)) s = .next t ∧
      (t.reg a).toNat = ((s.reg a).toNat * (s.reg b).toNat) % 256 ∧ t.pc.toNat = s.pc.toNat + 3 ∧
      s.RegsSameExcept t [a] ∧ s.MemSame t ∧ s.FlStatusOutSame t

/-- CMP a,b: FL gets the unsigned comparison, PC + 3, nothing else (R114, R115). -/
def Obligations.CmpSetsFlagOnly : Prop :=
  ∀ (a b : Fin 8) (s : State), s.pc.toNat + 3 ≤ 255 →
    ∃ t, exec (.cmp (regByte a) (regByte b)) s = .next t ∧
      ((s.reg a).toNat = (s.reg b).toNat → t.fl = .equal) ∧
      ((s.reg a).toNat < (s.reg b).toNat → t.fl = .lessThan) ∧
      ((s.reg b).toNat < (s.reg a).toNat → t.fl = .greaterThan) ∧ t.pc.toNat = s.pc.toNat + 3 ∧
      s.RegsSameExcept t [] ∧ s.MemSame t ∧ t.status = s.status ∧ t.out = s.out

/-- PUSH r: SP goes down by one and x[r], read after that, is stored at the new SP (R130). The address stored to is the SP
that `decSp` leaves, as in the meaning. That the stored byte reads back needs the canonical form, which every step keeps. -/
def Obligations.PushStoresAtNewSp : Prop :=
  ∀ (r : Fin 8) (s : State), 1 ≤ s.sp.toNat → s.pc.toNat + 2 ≤ 255 →
    ∃ w t, decSp s = .ok w ∧ exec (.push (regByte r)) s = .next t ∧
      t.sp.toNat + 1 = s.sp.toNat ∧ w.sp = t.sp ∧
      (s.mem.wf → t.memRead w.sp = if r = spIndex then t.sp else s.reg r) ∧ s.MemSameExcept t w.sp ∧
      t.pc.toNat = s.pc.toNat + 2 ∧ s.RegsSameExcept t [spIndex] ∧ s.FlStatusOutSame t

/-- POP r: x[r] gets the byte at SP and SP goes up by one; POP R7 leaves the popped byte plus 1 in SP; memory is unchanged,
the popped cell included (R132). -/
def Obligations.PopLoadsFromSp : Prop :=
  ∀ (r : Fin 8) (s : State), (if r = spIndex then s.memRead s.sp else s.sp).toNat + 1 ≤ 255 → s.pc.toNat + 2 ≤ 255 →
    ∃ t, exec (.pop (regByte r)) s = .next t ∧
      (r ≠ spIndex → t.reg r = s.memRead s.sp ∧ t.sp.toNat = s.sp.toNat + 1) ∧
      (r = spIndex → t.sp.toNat = (s.memRead s.sp).toNat + 1) ∧
      t.pc.toNat = s.pc.toNat + 2 ∧ s.RegsSameExcept t [r, spIndex] ∧ s.MemSame t ∧ s.FlStatusOutSame t

/-- CALL r: PC + 2 is pushed and the PC becomes x[r], read after the push (R143). The address stored to is the SP that
`decSp` leaves, as in the meaning. -/
def Obligations.CallPushesReturnAddress : Prop :=
  ∀ (r : Fin 8) (s : State), s.pc.toNat + 2 ≤ 255 → 1 ≤ s.sp.toNat →
    ∃ w t, decSp s = .ok w ∧ exec (.call (regByte r)) s = .next t ∧
      t.sp.toNat + 1 = s.sp.toNat ∧ w.sp = t.sp ∧
      (s.mem.wf → (t.memRead w.sp).toNat = s.pc.toNat + 2) ∧ s.MemSameExcept t w.sp ∧
      (t.pc = if r = spIndex then t.sp else s.reg r) ∧ s.RegsSameExcept t [spIndex] ∧ s.FlStatusOutSame t

/-- RET: the byte at SP becomes the PC and SP goes up by one; memory is unchanged (R145). -/
def Obligations.RetPopsPc : Prop :=
  ∀ s : State, s.sp.toNat + 1 ≤ 255 →
    ∃ t, exec .ret s = .next t ∧ t.pc = s.memRead s.sp ∧ t.sp.toNat = s.sp.toNat + 1 ∧
      s.RegsSameExcept t [spIndex] ∧ s.MemSame t ∧ s.FlStatusOutSame t

/-- JMP r: the PC becomes x[r], wherever the JMP stands; nothing else changes (R142). -/
def Obligations.JmpSetsPcOnly : Prop :=
  ∀ (r : Fin 8) (s : State),
    ∃ t, exec (.jmp (regByte r)) s = .next t ∧ t.pc = s.reg r ∧
      s.RegsSameExcept t [] ∧ s.MemSame t ∧ s.FlStatusOutSame t

/-- JEQ r: the PC becomes x[r] if FL is EQUAL, and goes on by 2 if FL is CLEAR, LESS_THAN or GREATER_THAN; nothing else
changes (R147, R146). -/
def Obligations.JeqJumpsOnEqual : Prop :=
  ∀ (r : Fin 8) (s : State), (s.fl ≠ .equal → s.pc.toNat + 2 ≤ 255) →
    ∃ t, exec (.jeq (regByte r)) s = .next t ∧
      (s.fl = .equal → t.pc = s.reg r) ∧ (s.fl ≠ .equal → t.pc.toNat = s.pc.toNat + 2) ∧
      s.RegsSameExcept t [] ∧ s.MemSame t ∧ s.FlStatusOutSame t

/-- JNE r: the PC becomes x[r] if FL is CLEAR, LESS_THAN or GREATER_THAN, and goes on by 2 if FL is EQUAL; nothing else
changes (R148, R146). -/
def Obligations.JneJumpsUnlessEqual : Prop :=
  ∀ (r : Fin 8) (s : State), (s.fl = .equal → s.pc.toNat + 2 ≤ 255) →
    ∃ t, exec (.jne (regByte r)) s = .next t ∧
      (s.fl ≠ .equal → t.pc = s.reg r) ∧ (s.fl = .equal → t.pc.toNat = s.pc.toNat + 2) ∧
      s.RegsSameExcept t [] ∧ s.MemSame t ∧ s.FlStatusOutSame t

/-! ### The whole rule of each instruction: one step with its opcode byte at the PC, in every case (stated) -/

/-- R100, every case of LDI. -/
def Obligations.LdiStepEveryCase : Prop :=
  ∀ s : State, s.status = .running → s.memRead s.pc = 0x82 →
    (254 ≤ s.pc.toNat → step s = .next (s.faultedBy (.addressOutOfRange .operandFetch 256))) ∧
    (s.pc.toNat ≤ 253 → 8 ≤ (s.operand 1).toNat →
      step s = .next (s.faultedBy (.badRegisterIndex .byte1 (s.operand 1)))) ∧
    (s.pc.toNat = 253 → (s.operand 1).toNat ≤ 7 →
      step s = .next (s.faultedBy (.addressOutOfRange .nextPc 256))) ∧
    (s.pc.toNat ≤ 252 → ∀ r : Fin 8, s.operand 1 = regByte r →
      step s = .next ((s.setReg r (s.operand 2)).jump (s.pc + 3)))

/-- R103, every case of PRN. -/
def Obligations.PrnStepEveryCase : Prop :=
  ∀ s : State, s.status = .running → s.memRead s.pc = 0x47 →
    (s.pc.toNat = 255 → step s = .next (s.faultedBy (.addressOutOfRange .operandFetch 256))) ∧
    (s.pc.toNat ≤ 254 → 8 ≤ (s.operand 1).toNat →
      step s = .next (s.faultedBy (.badRegisterIndex .byte1 (s.operand 1)))) ∧
    (s.pc.toNat = 254 → (s.operand 1).toNat ≤ 7 →
      step s = .next (s.faultedBy (.addressOutOfRange .nextPc 256))) ∧
    (s.pc.toNat ≤ 253 → ∀ r : Fin 8, s.operand 1 = regByte r →
      step s = .next ((s.emit (s.reg r)).jump (s.pc + 2)))

/-- R140: HLT never faults, wherever it stands, and only the status changes; the exit status is then 0, and no later step
changes anything. -/
def Obligations.HltStepEveryCase : Prop :=
  ∀ s : State, s.status = .running → s.memRead s.pc = 0x01 →
    step s = .next { s with status := .halted } ∧ Status.exitStatus .halted = some 0 ∧
    ∀ (n : Nat) (t : State), Sys2Proof.core.run n { s with status := .halted } = .next t →
      t = { s with status := .halted }

/-- R111, every case of ADD. -/
def Obligations.AddStepEveryCase : Prop :=
  ∀ s : State, s.status = .running → s.memRead s.pc = 0xA0 →
    (254 ≤ s.pc.toNat → step s = .next (s.faultedBy (.addressOutOfRange .operandFetch 256))) ∧
    (s.pc.toNat ≤ 253 → 8 ≤ (s.operand 1).toNat →
      step s = .next (s.faultedBy (.badRegisterIndex .byte1 (s.operand 1)))) ∧
    (s.pc.toNat ≤ 253 → (s.operand 1).toNat ≤ 7 → 8 ≤ (s.operand 2).toNat →
      step s = .next (s.faultedBy (.badRegisterIndex .byte2 (s.operand 2)))) ∧
    (s.pc.toNat = 253 → (s.operand 1).toNat ≤ 7 → (s.operand 2).toNat ≤ 7 →
      step s = .next (s.faultedBy (.addressOutOfRange .nextPc 256))) ∧
    (s.pc.toNat ≤ 252 → ∀ a b : Fin 8, s.operand 1 = regByte a → s.operand 2 = regByte b →
      step s = .next ((s.setReg a (s.reg a + s.reg b)).jump (s.pc + 3)))

/-- R112, every case of MUL. -/
def Obligations.MulStepEveryCase : Prop :=
  ∀ s : State, s.status = .running → s.memRead s.pc = 0xA2 →
    (254 ≤ s.pc.toNat → step s = .next (s.faultedBy (.addressOutOfRange .operandFetch 256))) ∧
    (s.pc.toNat ≤ 253 → 8 ≤ (s.operand 1).toNat →
      step s = .next (s.faultedBy (.badRegisterIndex .byte1 (s.operand 1)))) ∧
    (s.pc.toNat ≤ 253 → (s.operand 1).toNat ≤ 7 → 8 ≤ (s.operand 2).toNat →
      step s = .next (s.faultedBy (.badRegisterIndex .byte2 (s.operand 2)))) ∧
    (s.pc.toNat = 253 → (s.operand 1).toNat ≤ 7 → (s.operand 2).toNat ≤ 7 →
      step s = .next (s.faultedBy (.addressOutOfRange .nextPc 256))) ∧
    (s.pc.toNat ≤ 252 → ∀ a b : Fin 8, s.operand 1 = regByte a → s.operand 2 = regByte b →
      step s = .next ((s.setReg a (s.reg a * s.reg b)).jump (s.pc + 3)))

/-- R114 and R115, every case of CMP. -/
def Obligations.CmpStepEveryCase : Prop :=
  ∀ s : State, s.status = .running → s.memRead s.pc = 0xA7 →
    (254 ≤ s.pc.toNat → step s = .next (s.faultedBy (.addressOutOfRange .operandFetch 256))) ∧
    (s.pc.toNat ≤ 253 → 8 ≤ (s.operand 1).toNat →
      step s = .next (s.faultedBy (.badRegisterIndex .byte1 (s.operand 1)))) ∧
    (s.pc.toNat ≤ 253 → (s.operand 1).toNat ≤ 7 → 8 ≤ (s.operand 2).toNat →
      step s = .next (s.faultedBy (.badRegisterIndex .byte2 (s.operand 2)))) ∧
    (s.pc.toNat = 253 → (s.operand 1).toNat ≤ 7 → (s.operand 2).toNat ≤ 7 →
      step s = .next (s.faultedBy (.addressOutOfRange .nextPc 256))) ∧
    (s.pc.toNat ≤ 252 → ∀ a b : Fin 8, s.operand 1 = regByte a → s.operand 2 = regByte b →
      ((s.reg a).toNat = (s.reg b).toNat → step s = .next ((s.setFl .equal).jump (s.pc + 3))) ∧
      ((s.reg a).toNat < (s.reg b).toNat → step s = .next ((s.setFl .lessThan).jump (s.pc + 3))) ∧
      ((s.reg b).toNat < (s.reg a).toNat → step s = .next ((s.setFl .greaterThan).jump (s.pc + 3))))

/-- R130, every case of PUSH; PUSH R7 stores the decremented SP. -/
def Obligations.PushStepEveryCase : Prop :=
  ∀ s : State, s.status = .running → s.memRead s.pc = 0x45 →
    (s.pc.toNat = 255 → step s = .next (s.faultedBy (.addressOutOfRange .operandFetch 256))) ∧
    (s.pc.toNat ≤ 254 → 8 ≤ (s.operand 1).toNat →
      step s = .next (s.faultedBy (.badRegisterIndex .byte1 (s.operand 1)))) ∧
    (s.pc.toNat ≤ 254 → (s.operand 1).toNat ≤ 7 → s.sp = 0 →
      step s = .next (s.faultedBy (.stackPointerOutOfRange 0 .decrement))) ∧
    (s.pc.toNat = 254 → (s.operand 1).toNat ≤ 7 → s.sp ≠ 0 →
      step s = .next (s.faultedBy (.addressOutOfRange .nextPc 256))) ∧
    (s.pc.toNat ≤ 253 → s.sp ≠ 0 → ∀ r : Fin 8, s.operand 1 = regByte r →
      step s = .next (((s.setSp (s.sp - 1)).memWrite (s.sp - 1) (if r = 7 then s.sp - 1 else s.reg r)).jump (s.pc + 2)))

/-- R132, every case of POP; POP R7 increments the popped byte. -/
def Obligations.PopStepEveryCase : Prop :=
  ∀ s : State, s.status = .running → s.memRead s.pc = 0x46 →
    (s.pc.toNat = 255 → step s = .next (s.faultedBy (.addressOutOfRange .operandFetch 256))) ∧
    (s.pc.toNat ≤ 254 → 8 ≤ (s.operand 1).toNat →
      step s = .next (s.faultedBy (.badRegisterIndex .byte1 (s.operand 1)))) ∧
    (s.pc.toNat ≤ 254 → ∀ r : Fin 8, s.operand 1 = regByte r →
      (if r = 7 then s.memRead s.sp else s.sp) = 255 →
      step s = .next (s.faultedBy (.stackPointerOutOfRange 255 .increment))) ∧
    (s.pc.toNat = 254 → ∀ r : Fin 8, s.operand 1 = regByte r →
      (if r = 7 then s.memRead s.sp else s.sp) ≠ 255 →
      step s = .next (s.faultedBy (.addressOutOfRange .nextPc 256))) ∧
    (s.pc.toNat ≤ 253 → ∀ r : Fin 8, s.operand 1 = regByte r → r ≠ 7 → s.sp ≠ 255 →
      step s = .next (((s.setReg r (s.memRead s.sp)).setSp (s.sp + 1)).jump (s.pc + 2))) ∧
    (s.pc.toNat ≤ 253 → s.operand 1 = 7 → s.memRead s.sp ≠ 255 →
      step s = .next ((s.setSp (s.memRead s.sp + 1)).jump (s.pc + 2)))

/-- R143, every case of CALL, in the order of its exceptions; CALL R7 jumps to the new SP. -/
def Obligations.CallStepEveryCase : Prop :=
  ∀ s : State, s.status = .running → s.memRead s.pc = 0x50 →
    (s.pc.toNat = 255 → step s = .next (s.faultedBy (.addressOutOfRange .operandFetch 256))) ∧
    (s.pc.toNat ≤ 254 → 8 ≤ (s.operand 1).toNat →
      step s = .next (s.faultedBy (.badRegisterIndex .byte1 (s.operand 1)))) ∧
    (s.pc.toNat = 254 → (s.operand 1).toNat ≤ 7 →
      step s = .next (s.faultedBy (.addressOutOfRange .returnAddress 256))) ∧
    (s.pc.toNat ≤ 253 → (s.operand 1).toNat ≤ 7 → s.sp = 0 →
      step s = .next (s.faultedBy (.stackPointerOutOfRange 0 .decrement))) ∧
    (s.pc.toNat ≤ 253 → s.sp ≠ 0 → ∀ r : Fin 8, s.operand 1 = regByte r →
      step s = .next (((s.setSp (s.sp - 1)).memWrite (s.sp - 1) (s.pc + 2)).jump (if r = 7 then s.sp - 1 else s.reg r)))

/-- R145, every case of RET. -/
def Obligations.RetStepEveryCase : Prop :=
  ∀ s : State, s.status = .running → s.memRead s.pc = 0x11 →
    (s.sp = 255 → step s = .next (s.faultedBy (.stackPointerOutOfRange 255 .increment))) ∧
    (s.sp ≠ 255 → step s = .next ((s.setSp (s.sp + 1)).jump (s.memRead s.sp)))

/-- R142, every case of JMP; at PC 254 it does not fault. -/
def Obligations.JmpStepEveryCase : Prop :=
  ∀ s : State, s.status = .running → s.memRead s.pc = 0x54 →
    (s.pc.toNat = 255 → step s = .next (s.faultedBy (.addressOutOfRange .operandFetch 256))) ∧
    (s.pc.toNat ≤ 254 → 8 ≤ (s.operand 1).toNat →
      step s = .next (s.faultedBy (.badRegisterIndex .byte1 (s.operand 1)))) ∧
    (s.pc.toNat ≤ 254 → ∀ r : Fin 8, s.operand 1 = regByte r → step s = .next (s.jump (s.reg r)))

/-- R147, every case of JEQ; the register byte is checked even when the jump is not taken. -/
def Obligations.JeqStepEveryCase : Prop :=
  ∀ s : State, s.status = .running → s.memRead s.pc = 0x55 →
    (s.pc.toNat = 255 → step s = .next (s.faultedBy (.addressOutOfRange .operandFetch 256))) ∧
    (s.pc.toNat ≤ 254 → 8 ≤ (s.operand 1).toNat →
      step s = .next (s.faultedBy (.badRegisterIndex .byte1 (s.operand 1)))) ∧
    (s.pc.toNat ≤ 254 → s.fl = .equal → ∀ r : Fin 8, s.operand 1 = regByte r → step s = .next (s.jump (s.reg r))) ∧
    (s.pc.toNat = 254 → s.fl ≠ .equal → (s.operand 1).toNat ≤ 7 →
      step s = .next (s.faultedBy (.addressOutOfRange .nextPc 256))) ∧
    (s.pc.toNat ≤ 253 → s.fl ≠ .equal → (s.operand 1).toNat ≤ 7 → step s = .next (s.jump (s.pc + 2)))

/-- R148, every case of JNE. -/
def Obligations.JneStepEveryCase : Prop :=
  ∀ s : State, s.status = .running → s.memRead s.pc = 0x56 →
    (s.pc.toNat = 255 → step s = .next (s.faultedBy (.addressOutOfRange .operandFetch 256))) ∧
    (s.pc.toNat ≤ 254 → 8 ≤ (s.operand 1).toNat →
      step s = .next (s.faultedBy (.badRegisterIndex .byte1 (s.operand 1)))) ∧
    (s.pc.toNat ≤ 254 → s.fl ≠ .equal → ∀ r : Fin 8, s.operand 1 = regByte r → step s = .next (s.jump (s.reg r))) ∧
    (s.pc.toNat = 254 → s.fl = .equal → (s.operand 1).toNat ≤ 7 →
      step s = .next (s.faultedBy (.addressOutOfRange .nextPc 256))) ∧
    (s.pc.toNat ≤ 253 → s.fl = .equal → (s.operand 1).toNat ≤ 7 → step s = .next (s.jump (s.pc + 2)))

/-! ### Encoding -/

/-- R64: the 13 rows of the opcode table, with every operand byte, their lengths, and that there is no other row. -/
def Obligations.OpcodeTableDecodes : Prop :=
  ∀ (a b : Byte) (rest : List Byte),
    decode 0x82 (a :: b :: rest) = .ok (.ldi a b) ∧ decode 0x47 (a :: rest) = .ok (.prn a) ∧
    decode 0x01 rest = .ok .hlt ∧ decode 0xA2 (a :: b :: rest) = .ok (.mul a b) ∧
    decode 0xA0 (a :: b :: rest) = .ok (.add a b) ∧ decode 0x45 (a :: rest) = .ok (.push a) ∧
    decode 0x46 (a :: rest) = .ok (.pop a) ∧ decode 0x50 (a :: rest) = .ok (.call a) ∧
    decode 0x11 rest = .ok .ret ∧ decode 0x54 (a :: rest) = .ok (.jmp a) ∧
    decode 0xA7 (a :: b :: rest) = .ok (.cmp a b) ∧ decode 0x55 (a :: rest) = .ok (.jeq a) ∧
    decode 0x56 (a :: rest) = .ok (.jne a) ∧
    (Instr.ldi a b).length = 3 ∧ (Instr.prn a).length = 2 ∧ Instr.hlt.length = 1 ∧ (Instr.mul a b).length = 3 ∧
    (Instr.add a b).length = 3 ∧ (Instr.push a).length = 2 ∧ (Instr.pop a).length = 2 ∧ (Instr.call a).length = 2 ∧
    Instr.ret.length = 1 ∧ (Instr.jmp a).length = 2 ∧ (Instr.cmp a b).length = 3 ∧ (Instr.jeq a).length = 2 ∧
    (Instr.jne a).length = 2 ∧
    ∀ op : Byte, op ∉ ([0x82, 0x47, 0x01, 0xA2, 0xA0, 0x45, 0x46, 0x50, 0x11, 0x54, 0xA7, 0x55, 0x56] : List Byte) →
      decode op rest = .error .unrecognizedOpcode

/-- Decoding and encoding agree for every instruction with every operand byte: bytes decode to `i` exactly when they begin
with the encoding of `i` (derived from R60, R64, R68). -/
def Obligations.DecodesExactlyItsEncoding : Prop :=
  ∀ (op : Byte) (operands : List Byte) (i : Instr),
    decode op operands = .ok i ↔ ∃ rest, op :: operands = encode i ++ rest

/-- No encoding is the beginning of another, and the encoding has the table's length, which the opcode byte alone sets
(derived from R60, R68). -/
def Obligations.EncodingsAreUnambiguous : Prop :=
  (∀ (i j : Instr) (u v : List Byte), encode i ++ u = encode j ++ v → i = j ∧ u = v) ∧
  (∀ i : Instr, (encode i).length = i.length) ∧
  (∀ i j : Instr, i.opcode = j.opcode → i.length = j.length)

/-! ### The step -/

/-- A step of a RUNNING core is the handler of the instruction that the bytes at the PC decode to, well formed or not; the
handler sets the next PC itself and the step adds nothing (derived from R90, R86). -/
def Obligations.StepRunsDecodedInstruction : Prop :=
  ∀ (s : State) (i : Instr), s.status = .running → decode s.fetchOpcode s.fetchOperands = .ok i → step s = exec i s

/-- R81: with the encoding of `i` in memory from the PC up, the step runs `i`; with only its opcode byte there and an
operand byte past address 255, the step faults with the address that does not exist, which is 256. -/
def Obligations.OperandBytesAreFetchedOrFault : Prop :=
  ∀ (s : State) (i : Instr), s.status = .running → s.memRead s.pc = i.opcode →
    (s.pc.toNat + (i.length - 1) ≤ 255 →
      (∀ (k : Nat) (h : k < i.operandBytes.length), s.operand (k + 1) = i.operandBytes[k]) → step s = exec i s) ∧
    (255 < s.pc.toNat + (i.length - 1) → step s = .next (s.faultedBy (.addressOutOfRange .operandFetch 256)))

/-- R65: an opcode byte that is none of the 13 raises UnrecognizedOpcode, and 243 bytes are such. -/
def Obligations.IllegalOpcodeFaults : Prop :=
  (∀ s : State, s.status = .running →
    s.memRead s.pc ∉ ([0x82, 0x47, 0x01, 0xA2, 0xA0, 0x45, 0x46, 0x50, 0x11, 0x54, 0xA7, 0x55, 0x56] : List Byte) →
    step s = .next (s.faultedBy .unrecognizedOpcode)) ∧
  ((List.range 256).filter fun n =>
    match decode (BitVec.ofNat 8 n) [] with
    | .error .unrecognizedOpcode => true
    | .error (.missingOperand _) | .ok _ => false).length = 243

/-- R163: the first register-index byte, in byte order, that is above 7 is reported with its position and value, whatever
else the instruction would do; a taken or untaken conditional jump is no exception. -/
def Obligations.FirstBadRegisterByteIsReported : Prop :=
  ∀ (i : Instr) (s : State) (p : Position) (v : Byte),
    (i.regBytes.find? fun pr => decide (7 < pr.2.toNat)) = some (p, v) →
    exec i s = .next { s with status := .faulted { pc := s.pc, ir := i.opcode, fault := .badRegisterIndex p v } }

/-- R166: one fault is reported per instruction, that of the first check that fails in the rule's order, and nothing but
the status changes; with no failing check the instruction completes, and the core is HALTED after HLT and RUNNING after
every other. -/
def Obligations.FirstFailedCheckIsReported : Prop :=
  ∀ s : State, s.status = .running →
    match firstFailed s.checks with
    | some f => step s = .next (s.faultedBy f)
    | none => ∃ t, step s = .next t ∧ t.status = if s.memRead s.pc = 0x01 then .halted else .running

/-- R160: a fault changes nothing but the status; the record holds the faulting instruction's address and opcode byte and
the fault with its code number and legal info; the exit status is FAULT_EXIT_STATUS, which is not 0. -/
def Obligations.FaultsArePrecise : Prop :=
  (∀ (s t : State) (r : FaultRecord), s.status = .running → step s = .next t → t.status = .faulted r →
    t = { s with status := .faulted r } ∧ r.pc = s.pc ∧ r.ir = s.memRead s.pc ∧ r.Legal ∧
    t.status.exitStatus = some Config.faultExitStatus) ∧
  Config.faultExitStatus ≠ 0 ∧
  (∀ (n a : Nat) (k : AddrKind) (p : Position) (v : Byte) (d : Dir),
    Fault.unrecognizedOpcode.code = 1 ∧ (Fault.unrecognizedALUOperation n).code = 2 ∧
    (Fault.addressOutOfRange k a).code = 3 ∧ (Fault.badRegisterIndex p v).code = 4 ∧
    (Fault.stackPointerOutOfRange v d).code = 5)

/-- R165: no step and no handler ever raises UnrecognizedALUOperation. -/
def Obligations.AluFaultIsUnreachable : Prop :=
  (∀ (i : Instr) (s t : State) (r : FaultRecord) (n : Nat), s.status = .running → exec i s = .next t →
    t.status = .faulted r → r.fault ≠ .unrecognizedALUOperation n) ∧
  (∀ (s t : State) (r : FaultRecord) (n : Nat), s.status = .running → step s = .next t →
    t.status = .faulted r → r.fault ≠ .unrecognizedALUOperation n)

/-- R32: HALTED is reached by HLT, FAULTED by a fault, with its record, and nothing else, a core that does neither stays
RUNNING, and both are final: whatever a number of steps leads to is the same state. -/
def Obligations.StoppedCoreStaysAsItIs : Prop :=
  (∀ (s t : State) (n : Nat), s.status ≠ .running → Sys2Proof.core.run n s = .next t → t = s) ∧
  (∀ s t : State, s.status = .running → step s = .next t → (t.status = .halted ↔ s.memRead s.pc = 0x01)) ∧
  (∀ s t : State, s.status = .running → step s = .next t →
    (t.status = .running ↔ firstFailed s.checks = none ∧ s.memRead s.pc ≠ 0x01)) ∧
  (∀ (s t : State) (f : Fault), s.status = .running → step s = .next t → firstFailed s.checks = some f →
    t.status = .faulted { pc := s.pc, ir := s.memRead s.pc, fault := f })

/-- No run, from any state and of any length, ends in a fault or a refusal of the host's interface: the core's own faults
are states (derived from R160 and R90; that the interface's fault is never answered is the model's choice, log 1, and that
a stopped core answers the same state is its reading, log 2). -/
def Obligations.EveryRunAnswersAState : Prop :=
  (∀ (i : Instr) (s : State), ∃ t, exec i s = .next t) ∧
  (∀ (n : Nat) (s : State), ∃ t, Sys2Proof.core.run n s = .next t)

/-- R87, and the other two ways of R86: the handler sets the next PC in one of three ways. A sequential advance adds the length, as a number, so
the PC never wraps; a transfer takes a register's value or the popped byte; HLT leaves the PC. -/
def Obligations.NextPcIsSetInOneOfThreeWays : Prop :=
  ∀ (i : Instr) (s t : State), s.status = .running → exec i s = .next t → t.Safe →
    match i with
    | .ldi _ _ | .add _ _ | .mul _ _ | .cmp _ _ => t.pc.toNat = s.pc.toNat + 3
    | .prn _ | .push _ | .pop _ => t.pc.toNat = s.pc.toNat + 2
    | .hlt => t.pc = s.pc
    | .jmp r => ∃ k : Fin 8, r = regByte k ∧ t.pc = s.reg k
    | .call r => ∃ k : Fin 8, r = regByte k ∧ t.pc = t.reg k
    | .ret => t.pc = s.memRead s.sp
    | .jeq r => if s.fl = .equal then ∃ k : Fin 8, r = regByte k ∧ t.pc = s.reg k else t.pc.toNat = s.pc.toNat + 2
    | .jne r => if s.fl = .equal then t.pc.toNat = s.pc.toNat + 2 else ∃ k : Fin 8, r = regByte k ∧ t.pc = s.reg k

/-! ### Who may change what -/

/-- R26: only CMP changes FL, and an instruction other than JEQ and JNE does the same whatever FL held: another value in FL
changes nothing in the next state but FL itself, which is either written the same or kept. -/
def Obligations.FlIsWrittenByCmpAndReadByJumps : Prop :=
  (∀ (i : Instr) (s t : State), exec i s = .next t → t.fl ≠ s.fl → ∃ a b, i = .cmp a b) ∧
  (∀ (i : Instr) (s : State) (f : Flag), readsFl i = false →
    ∃ t u, exec i s = .next t ∧ exec i (s.setFl f) = .next u ∧ u = t.setFl u.fl ∧
      (u.fl = t.fl ∨ (t.fl = s.fl ∧ u.fl = f)))

/-- R25: FL is CLEAR at reset, a completed CMP leaves one of the three others, and no step brings CLEAR back. -/
def Obligations.FlNeverReturnsToClear : Prop :=
  State.reset.fl = .clear ∧
  (∀ (a b : RegByte) (s t : State), s.status = .running → exec (.cmp a b) s = .next t → t.Safe → t.fl ≠ .clear) ∧
  (∀ s t : State, s.fl ≠ .clear → step s = .next t → t.fl ≠ .clear)

/-- R40: a cell changes only under PUSH or CALL, and then it is the one at the new SP, which CALL gives the return address
byte; and an instruction other than POP and RET does the same whatever memory held: another content of memory changes
nothing in the next state but memory itself, each byte of which is either written the same or kept. -/
def Obligations.MemoryIsWrittenByPushAndCall : Prop :=
  (∀ (i : Instr) (s t : State) (a : Byte), exec i s = .next t → t.memRead a ≠ s.memRead a →
    a = t.sp ∧ ∃ r, i = .push r ∨ i = .call r ∧ (s.mem.wf → (t.memRead a).toNat = s.pc.toNat + 2)) ∧
  (∀ (i : Instr) (s : State) (m : Memory), readsMem i = false →
    ∃ t u, exec i s = .next t ∧ exec i { s with mem := m } = .next u ∧ u = { t with mem := u.mem } ∧
      (s.mem.wf → m.wf → ∀ a : Byte,
        u.memRead a = t.memRead a ∨ (t.memRead a = s.memRead a ∧ u.memRead a = m.get a.toNat)))

/-- R33: a PRN that completes appends one value, that of the named register, and every other step leaves `out` as it is. -/
def Obligations.OutputGrowsOnlyByPrn : Prop :=
  ∀ s t : State, step s = .next t →
    if s.status = .running ∧ s.memRead s.pc = 0x47 ∧ t.status = .running then
      ∃ r : Fin 8, s.operand 1 = regByte r ∧ t.out = s.out ++ [s.reg r]
    else t.out = s.out

/-- R22: every register can be written and read; an instruction changes only the registers the table lists as written, and
what it does depends on no register but those the table lists as read. -/
def Obligations.RegistersReadAndWrittenAsListed : Prop :=
  (∀ (s : State) (j : Fin 8) (v : Byte), (s.setReg j v).reg j = v) ∧
  (∀ (i : Instr) (s t : State) (j : Fin 8), exec i s = .next t → t.reg j ≠ s.reg j → writesReg j i) ∧
  (∀ (i : Instr) (s : State) (j : Fin 8) (v : Byte), ¬ readsReg s j i →
    ∃ t u, exec i s = .next t ∧ exec i (s.setReg j v) = .next u ∧ u = t.setReg j (u.reg j) ∧
      (u.reg j = t.reg j ∨ (t.reg j = s.reg j ∧ u.reg j = v)))

/-- R50: after any sequence of writes a read returns the last byte written to its address, and what it read before them if
there is none; the fetch of the opcode byte and of the operand bytes included. -/
def Obligations.ReadReturnsLastWrite : Prop :=
  ∀ (s : State) (ws : List (Byte × Byte)) (a : Byte), s.mem.wf →
    let t := ws.foldl (fun u w => u.memWrite w.1 w.2) s
    let last := fun b : Byte => (((ws.reverse.find? fun w => decide (w.1 = b)).map Prod.snd).getD (s.memRead b))
    t.memRead a = last a ∧ t.fetchOpcode = last s.pc ∧
    ∀ k, s.pc.toNat + k ≤ 255 → t.operandByte k = some (last (s.pc + BitVec.ofNat 8 k))

/-- A byte that PUSH or CALL stores where the next instruction is fetched is what the next fetch sees, as the opcode or as
an operand (derived from R53). -/
def Obligations.FetchSeesThePushedByte : Prop :=
  ∀ (i : Instr) (s t : State), s.mem.wf → s.status = .running → exec i s = .next t → t.status = .running →
    (∀ r : Fin 8, i = .push (regByte r) →
      (t.pc = t.sp → t.fetchOpcode = t.reg r) ∧
      ∀ k, t.pc.toNat + k = t.sp.toNat → t.operandByte k = some (t.reg r)) ∧
    (∀ r : Fin 8, i = .call (regByte r) →
      (t.pc = t.sp → t.fetchOpcode.toNat = s.pc.toNat + 2) ∧
      ∀ k, t.pc.toNat + k = t.sp.toNat → t.operandByte k = some (BitVec.ofNat 8 (s.pc.toNat + 2)))

/-! ### Invariant and reset -/

/-- Every step keeps the invariant: canonical memory, HALTED at a HLT, and a fault record that names the instruction at the
PC with legal info (derived from R35, R140, R160; the canonical form is the model's own, log 5). -/
def Obligations.StepKeepsInvariant : Prop := ∀ s t : State, s.Inv → step s = .next t → t.Inv

/-- The invariant holds at reset and after the launch of any image (derived from R35, R181; its clause on the canonical form of
memory is the model's own, log 5). -/
def Obligations.ResetAndLaunchMeetInvariant : Prop :=
  State.reset.Inv ∧ ∀ (image : List Byte) (s : State), launch image = .next s → s.Inv

/-- The state after reset with the empty image: every value of the table of R35 (derived; that State.reset is the launch of
the empty image is the model's choice, log 3). -/
def Obligations.ResetHoldsTheStatedValues : Prop :=
  (∀ i : Fin 8, State.reset.reg i = if i = spIndex then 0xF4 else 0) ∧ State.reset.pc = 0 ∧ State.reset.fl = .clear ∧
  State.reset.status = .running ∧ State.reset.out = [] ∧ (∀ a : Byte, State.reset.memRead a = 0) ∧
  launch [] = .next State.reset

/-- R35 and R182: an image of at most 256 bytes is launched: byte a goes to address a, every other cell is 0 and the rest is
the reset state; a longer one is refused; the empty one is allowed, and its first step raises UnrecognizedOpcode. -/
def Obligations.LaunchLoadsTheImage : Prop :=
  (∀ image : List Byte, image.length ≤ 256 →
    ∃ s, launch image = .next s ∧ (∀ a : Byte, s.memRead a = image.getD a.toNat 0) ∧
      (∀ i : Fin 8, s.reg i = if i = spIndex then 0xF4 else 0) ∧ s.pc = 0 ∧ s.fl = .clear ∧ s.status = .running ∧
      s.out = []) ∧
  (∀ image : List Byte, 256 < image.length → launch image = .refused (.imageTooLong image.length)) ∧
  (∃ s, launch [] = .next s ∧ step s = .next (s.faultedBy .unrecognizedOpcode))

/-! ### Properties of sequences of instructions -/

/-- R133: a PUSH r followed directly by a POP r, neither faulting, puts back every register, SP and R7 included; the cell
at SP - 1 keeps the pushed byte. -/
def Obligations.PushThenPopPutsBack : Prop :=
  ∀ (r : Fin 8) (s t u : State), s.mem.wf → s.status = .running →
    exec (.push (regByte r)) s = .next t → t.status = .running →
    exec (.pop (regByte r)) t = .next u → u.status = .running →
    (∀ j, u.reg j = s.reg j) ∧ u.memRead (s.sp - 1) = t.memRead (s.sp - 1)

/-- R144: a RET that runs, whenever it does, with the SP that a CALL left and with that stack cell not overwritten returns
to the CALL's address plus 2 and puts SP back; it never faults. -/
def Obligations.CallThenRetReturns : Prop :=
  ∀ (r : Fin 8) (s t u : State), s.mem.wf → s.status = .running →
    exec (.call (regByte r)) s = .next t → t.status = .running →
    u.status = .running → u.sp = t.sp → u.memRead u.sp = t.memRead t.sp →
    ∃ v, exec .ret u = .next v ∧ v.status = .running ∧ v.pc.toNat = s.pc.toNat + 2 ∧ v.sp = s.sp

/-- Adding x[b] as many times as x[c] says, into a register that held 0, gives what one MUL of x[b] by x[c] gives (derived
from R117, without its loop of CMP and JEQ). -/
def Obligations.RepeatedAddIsMul : Prop :=
  ∀ (a b c : Fin 8) (s : State), a ≠ b → s.reg a = 0 → s.pc.toNat + 3 ≤ 255 →
    ∃ t u, addTimes (regByte a) (regByte b) (s.reg c).toNat s = some u ∧
      exec (.mul (regByte b) (regByte c)) s = .next t ∧ u.reg a = t.reg b

/-- R146: the table of the jumps, and that no program tells LESS_THAN from GREATER_THAN (nor either from CLEAR): runs of any
length from two states that differ only in which value other than EQUAL their FL holds stay equal but for FL. -/
def Obligations.NoProgramTellsLessFromGreater : Prop :=
  (∀ (r : Fin 8) (s : State), s.pc.toNat + 2 ≤ 255 → ∃ t u, exec (.jeq (regByte r)) s = .next t ∧
    exec (.jne (regByte r)) s = .next u ∧
    (s.fl = .equal → t.pc = s.reg r ∧ u.pc.toNat = s.pc.toNat + 2) ∧
    (s.fl = .clear ∨ s.fl = .lessThan ∨ s.fl = .greaterThan → t.pc.toNat = s.pc.toNat + 2 ∧ u.pc = s.reg r)) ∧
  (∀ (n : Nat) (s t : State), s.FlAlike t →
    ∃ u v : State, Sys2Proof.core.run n s = .next u ∧ Sys2Proof.core.run n t = .next v ∧ u.FlAlike v)

/-- A JMP whose target is its own address runs for ever: every number of steps leaves the state as it is, RUNNING (derived
from R142 and R91). -/
def Obligations.JumpToItselfRunsForEver : Prop :=
  ∀ (r : Fin 8) (s : State) (n : Nat), s.status = .running → s.memRead s.pc = 0x54 → s.pc.toNat ≤ 254 →
    s.operand 1 = regByte r → s.reg r = s.pc → Sys2Proof.core.run n s = .next s

/-! ### Outputs -/

/-- R177: the exit status is 0 when HALTED and FAULT_EXIT_STATUS, which is not 0, when FAULTED; a RUNNING core has none. -/
def Obligations.ExitStatusFollowsStatus : Prop :=
  Status.exitStatus .halted = some 0 ∧ (∀ r, Status.exitStatus (.faulted r) = some Config.faultExitStatus) ∧
  Config.faultExitStatus ≠ 0 ∧ Status.exitStatus .running = none

/-- The console text is one line per value, in order: decimal digits of the value with no leading zero, then LF (derived
from R104). -/
def Obligations.ConsoleShowsDecimalLines : Prop :=
  (∀ (out : List Byte) (v : Byte), consoleText (out ++ [v]) = consoleText out ++ consoleLine v) ∧ consoleText [] = [] ∧
  (∀ v : Byte, ∃ digits : List Char, consoleLine v = digits ++ ['\n'] ∧
    (∀ c ∈ digits, '0' ≤ c ∧ c ≤ '9') ∧
    digits.foldl (fun n c => 10 * n + (c.toNat - 48)) 0 = v.toNat ∧
    digits ≠ [] ∧ (digits.head? = some '0' → digits = ['0']))
end

