-- ==== Sys2Proof/Laws/State.lean ====
section
/-! SUPPORT. One lemma per field per update of the state, so that no proof unfolds a record update; and the register file's
read-after-write laws. -/

namespace Sys2Proof.Machine

variable (s : State) (i j : Fin 8) (v w : Byte) (a : Byte) (f : Flag)

/-! ### setReg -/

@[simp] theorem State.setReg_mem : (s.setReg i v).mem = s.mem := rfl
@[simp] theorem State.setReg_pc : (s.setReg i v).pc = s.pc := rfl
@[simp] theorem State.setReg_fl : (s.setReg i v).fl = s.fl := rfl
@[simp] theorem State.setReg_status : (s.setReg i v).status = s.status := rfl
@[simp] theorem State.setReg_out : (s.setReg i v).out = s.out := rfl
@[simp] theorem State.setReg_memRead : (s.setReg i v).memRead a = s.memRead a := rfl

/-- A register read after it was written gives the value written. -/
@[simp] theorem State.reg_setReg_same : (s.setReg i v).reg i = v := by
  simp [State.reg, State.setReg]

/-- A register other than the one written holds what it held. -/
theorem State.reg_setReg_ne (h : j ≠ i) : (s.setReg i v).reg j = s.reg j := by
  have : i.val ≠ j.val := fun e => h (Fin.ext e.symm)
  simp [State.reg, State.setReg, this]

/-- Reading a register after any register write. -/
theorem State.reg_setReg : (s.setReg i v).reg j = if j = i then v else s.reg j := by
  by_cases h : j = i
  · subst h; simp
  · simp [h, State.reg_setReg_ne]

/-- The later of two writes to one register stands. -/
@[simp] theorem State.setReg_setReg_same : (s.setReg i v).setReg i w = s.setReg i w := by
  simp [State.setReg]

/-- Two states agree when every register and every other field does. -/
theorem State.ext_reg {s t : State} (hm : s.mem = t.mem) (hr : ∀ k, s.reg k = t.reg k) (hp : s.pc = t.pc)
    (hf : s.fl = t.fl) (hs : s.status = t.status) (ho : s.out = t.out) : s = t := by
  cases s with
  | mk m r p fl st o =>
    cases t with
    | mk m' r' p' fl' st' o' =>
      have hregs : r = r' := Vector.ext fun k hk => hr ⟨k, hk⟩
      simp_all

/-! ### setSp -/

@[simp] theorem State.setSp_sp : (s.setSp v).sp = v := State.reg_setReg_same s spIndex v
@[simp] theorem State.setSp_mem : (s.setSp v).mem = s.mem := rfl
@[simp] theorem State.setSp_pc : (s.setSp v).pc = s.pc := rfl
@[simp] theorem State.setSp_fl : (s.setSp v).fl = s.fl := rfl
@[simp] theorem State.setSp_status : (s.setSp v).status = s.status := rfl
@[simp] theorem State.setSp_out : (s.setSp v).out = s.out := rfl
@[simp] theorem State.setSp_memRead : (s.setSp v).memRead a = s.memRead a := rfl

theorem State.reg_setSp : (s.setSp v).reg j = if j = spIndex then v else s.reg j := State.reg_setReg s spIndex j v

/-! ### memWrite -/

@[simp] theorem State.memWrite_regs : (s.memWrite a v).regs = s.regs := rfl
@[simp] theorem State.memWrite_reg : (s.memWrite a v).reg i = s.reg i := rfl
@[simp] theorem State.memWrite_sp : (s.memWrite a v).sp = s.sp := rfl
@[simp] theorem State.memWrite_pc : (s.memWrite a v).pc = s.pc := rfl
@[simp] theorem State.memWrite_fl : (s.memWrite a v).fl = s.fl := rfl
@[simp] theorem State.memWrite_status : (s.memWrite a v).status = s.status := rfl
@[simp] theorem State.memWrite_out : (s.memWrite a v).out = s.out := rfl
@[simp] theorem State.memWrite_mem : (s.memWrite a v).mem = s.mem.set a.toNat v := rfl

/-! ### setFl -/

@[simp] theorem State.setFl_mem : (s.setFl f).mem = s.mem := rfl
@[simp] theorem State.setFl_reg : (s.setFl f).reg i = s.reg i := rfl
@[simp] theorem State.setFl_sp : (s.setFl f).sp = s.sp := rfl
@[simp] theorem State.setFl_pc : (s.setFl f).pc = s.pc := rfl
@[simp] theorem State.setFl_fl : (s.setFl f).fl = f := rfl
@[simp] theorem State.setFl_status : (s.setFl f).status = s.status := rfl
@[simp] theorem State.setFl_out : (s.setFl f).out = s.out := rfl
@[simp] theorem State.setFl_memRead : (s.setFl f).memRead a = s.memRead a := rfl

/-! ### jump -/

@[simp] theorem State.jump_mem : (s.jump v).mem = s.mem := rfl
@[simp] theorem State.jump_reg : (s.jump v).reg i = s.reg i := rfl
@[simp] theorem State.jump_sp : (s.jump v).sp = s.sp := rfl
@[simp] theorem State.jump_pc : (s.jump v).pc = v := rfl
@[simp] theorem State.jump_fl : (s.jump v).fl = s.fl := rfl
@[simp] theorem State.jump_status : (s.jump v).status = s.status := rfl
@[simp] theorem State.jump_out : (s.jump v).out = s.out := rfl
@[simp] theorem State.jump_memRead : (s.jump v).memRead a = s.memRead a := rfl

/-! ### emit -/

@[simp] theorem State.emit_mem : (s.emit v).mem = s.mem := rfl
@[simp] theorem State.emit_reg : (s.emit v).reg i = s.reg i := rfl
@[simp] theorem State.emit_sp : (s.emit v).sp = s.sp := rfl
@[simp] theorem State.emit_pc : (s.emit v).pc = s.pc := rfl
@[simp] theorem State.emit_fl : (s.emit v).fl = s.fl := rfl
@[simp] theorem State.emit_status : (s.emit v).status = s.status := rfl
@[simp] theorem State.emit_out : (s.emit v).out = s.out ++ [v] := rfl
@[simp] theorem State.emit_memRead : (s.emit v).memRead a = s.memRead a := rfl

/-! ### halt -/

@[simp] theorem State.halt_mem : s.halt.mem = s.mem := rfl
@[simp] theorem State.halt_reg : s.halt.reg i = s.reg i := rfl
@[simp] theorem State.halt_sp : s.halt.sp = s.sp := rfl
@[simp] theorem State.halt_pc : s.halt.pc = s.pc := rfl
@[simp] theorem State.halt_fl : s.halt.fl = s.fl := rfl
@[simp] theorem State.halt_status : s.halt.status = .halted := rfl
@[simp] theorem State.halt_out : s.halt.out = s.out := rfl
@[simp] theorem State.halt_memRead : s.halt.memRead a = s.memRead a := rfl

end Sys2Proof.Machine
end

