-- ==== Sys2Proof/Laws/Memory.lean ====
section
/-! SUPPORT. The laws of memory: a read after a write, and that every memory operation keeps the canonical form. -/

namespace Sys2Proof.Machine

theorem Memory.wf_nil : Memory.wf [] := by simp [Memory.wf]

theorem State.reset_mem_wf : State.reset.mem.wf := Memory.wf_nil

theorem Memory.wf_cons (c : Host.Cell) (m : Memory) :
    Memory.wf (c :: m) ↔
      (∀ d ∈ m, c.1 < d.1) ∧ c.1 < Config.memSize ∧ c.2 ≠ Memory.unlisted ∧ Memory.wf m := by
  simp only [Memory.wf, List.pairwise_cons, List.forall_mem_cons]
  constructor
  · rintro ⟨⟨h1, h2⟩, ⟨h3, h4⟩, h5⟩; exact ⟨h1, h3, h4, h2, h5⟩
  · rintro ⟨h1, h3, h4, h2, h5⟩; exact ⟨⟨h1, h2⟩, ⟨h3, h4⟩, h5⟩

/-- An address that no cell has reads as an unlisted one. -/
theorem Memory.get_of_forall_ne (m : Memory) (a : Nat) (h : ∀ c ∈ m, c.1 ≠ a) : m.get a = Memory.unlisted := by
  induction m with
  | nil => rfl
  | cons c m ih =>
    have hc : a ≠ c.1 := fun e => h c List.mem_cons_self e.symm
    simp only [Memory.get, hc, if_false]
    exact ih fun d hd => h d (List.mem_cons_of_mem _ hd)

theorem Memory.get_put_ne (m : Memory) (a b : Nat) (v : Byte) (h : b ≠ a) : (Memory.put a v m).get b = m.get b := by
  unfold Memory.put
  split
  · rfl
  · simp [Memory.get, h]

theorem Memory.get_put_same (m : Memory) (a : Nat) (v : Byte) (h : ∀ c ∈ m, c.1 ≠ a) : (Memory.put a v m).get a = v := by
  unfold Memory.put
  split
  · next hv => rw [Memory.get_of_forall_ne m a h, hv]
  · simp [Memory.get]

/-- A write leaves every other address alone. -/
theorem Memory.get_set_ne (m : Memory) (a b : Nat) (v : Byte) (h : b ≠ a) : (m.set a v).get b = m.get b := by
  induction m with
  | nil => exact Memory.get_put_ne [] a b v h
  | cons c m ih =>
    simp only [Memory.set]
    split
    · rw [Memory.get_put_ne _ _ _ _ h]
    · split
      · next hac =>
        rw [Memory.get_put_ne _ _ _ _ h]
        have : b ≠ c.1 := hac ▸ h
        simp [Memory.get, this]
      · simp only [Memory.get, ih]

/-- In canonical memory a read after a write to the same address gives the byte written. -/
theorem Memory.get_set_same (m : Memory) (a : Nat) (v : Byte) (hm : m.wf) : (m.set a v).get a = v := by
  induction m with
  | nil => exact Memory.get_put_same [] a v (by simp)
  | cons c m ih =>
    obtain ⟨hlt, -, -, hwf⟩ := (Memory.wf_cons c m).1 hm
    simp only [Memory.set]
    split
    · next hac =>
      refine Memory.get_put_same _ a v fun d hd => ?_
      rcases List.mem_cons.1 hd with rfl | hd
      · exact Nat.ne_of_gt hac
      · exact Nat.ne_of_gt (Nat.lt_trans hac (hlt d hd))
    · split
      · next hac => exact Memory.get_put_same _ a v fun d hd => hac ▸ Nat.ne_of_gt (hlt d hd)
      · next hac => simp only [Memory.get, hac, if_false]; exact ih hwf

/-- Every cell after a write was there before or is the one written. -/
theorem Memory.mem_set (m : Memory) (a : Nat) (v : Byte) (c : Host.Cell) (h : c ∈ m.set a v) :
    c ∈ m ∨ c.1 = a := by
  induction m with
  | nil =>
    simp only [Memory.set, Memory.put] at h
    split at h <;> simp_all
  | cons d m ih =>
    simp only [Memory.set, Memory.put] at h
    split at h
    · split at h <;> simp_all; rcases h with rfl | h <;> simp_all
    · split at h
      · split at h <;> simp_all; rcases h with rfl | h <;> simp_all
      · rcases List.mem_cons.1 h with rfl | h
        · simp
        · rcases ih h with h | h
          · exact .inl (List.mem_cons_of_mem _ h)
          · exact .inr h

theorem Memory.wf_put (m : Memory) (a : Nat) (v : Byte) (ha : a < Config.memSize) (hlt : ∀ c ∈ m, a < c.1)
    (hm : m.wf) : (Memory.put a v m).wf := by
  unfold Memory.put
  split
  · exact hm
  · next hv => exact (Memory.wf_cons (a, v) m).2 ⟨hlt, ha, hv, hm⟩

/-- A write to an address of the machine keeps the canonical form. -/
theorem Memory.wf_set (m : Memory) (a : Nat) (v : Byte) (ha : a < Config.memSize) (hm : m.wf) : (m.set a v).wf := by
  induction m with
  | nil => exact Memory.wf_put [] a v ha (by simp) hm
  | cons c m ih =>
    obtain ⟨hlt, hc, hv, hwf⟩ := (Memory.wf_cons c m).1 hm
    simp only [Memory.set]
    split
    · next hac =>
      refine Memory.wf_put _ a v ha (fun d hd => ?_) hm
      rcases List.mem_cons.1 hd with rfl | hd
      · exact hac
      · exact Nat.lt_trans hac (hlt d hd)
    · split
      · next hac => exact Memory.wf_put _ a v ha (fun d hd => hac ▸ hlt d hd) hwf
      · next h1 h2 =>
        refine (Memory.wf_cons c _).2 ⟨fun d hd => ?_, hc, hv, ih hwf⟩
        rcases Memory.mem_set m a v d hd with hd | hd
        · exact hlt d hd
        · rw [hd]; exact Nat.lt_of_le_of_ne (Nat.le_of_not_lt h1) (Ne.symm h2)

theorem Byte.toNat_lt_memSize (a : Byte) : a.toNat < Config.memSize := a.isLt

/-- MemWrite keeps the canonical form. -/
theorem State.memWrite_mem_wf (s : State) (a v : Byte) (h : s.mem.wf) : (s.memWrite a v).mem.wf :=
  Memory.wf_set _ _ _ (Byte.toNat_lt_memSize a) h

/-- MemRead after MemWrite to the same address. -/
theorem State.memRead_memWrite_same (s : State) (a v : Byte) (h : s.mem.wf) : (s.memWrite a v).memRead a = v :=
  Memory.get_set_same _ _ _ h

/-- MemRead after MemWrite to another address. -/
theorem State.memRead_memWrite_ne (s : State) (a b v : Byte) (h : b ≠ a) : (s.memWrite a v).memRead b = s.memRead b :=
  Memory.get_set_ne _ _ _ _ fun e => h (BitVec.eq_of_toNat_eq e)

/-- Placing bytes keeps the canonical form. -/
theorem State.placeBytes_mem_wf (vs : List Byte) (s : State) (a : Nat) (h : s.mem.wf) : (s.placeBytes a vs).mem.wf := by
  induction vs generalizing s a with
  | nil => exact h
  | cons v vs ih =>
    refine ih _ _ ?_
    show Memory.wf (if a ≤ Config.maxAddr then s.mem.set a v else s.mem)
    split
    · next ha => exact Memory.wf_set _ _ _ (Nat.lt_succ_of_le ha) h
    · exact h

/-- Placing bytes changes nothing but memory. -/
theorem State.placeBytes_frame (vs : List Byte) (s : State) (a : Nat) :
    s.placeBytes a vs = { s with mem := (s.placeBytes a vs).mem } := by
  induction vs generalizing s a with
  | nil => rfl
  | cons v vs ih => rw [State.placeBytes, ih]

/-- Placing bytes from address `a` up leaves the addresses below `a` alone. -/
theorem State.placeBytes_get_lt (vs : List Byte) (s : State) (a b : Nat) (h : b < a) :
    (s.placeBytes a vs).mem.get b = s.mem.get b := by
  induction vs generalizing s a with
  | nil => rfl
  | cons v vs ih =>
    rw [State.placeBytes, ih _ _ (Nat.lt_succ_of_lt h)]
    show Memory.get (if a ≤ Config.maxAddr then s.mem.set a v else s.mem) b = _
    split
    · exact Memory.get_set_ne _ _ _ _ (Nat.ne_of_lt h)
    · rfl

end Sys2Proof.Machine
end

