-- ==== Sys2Proof/Laws/Ops.lean ====
section
/-! SUPPORT. One spec lemma per shared operation (what it answers, and when), the two forms every meaning has (its register
bytes good, or the first bad one), and the laws of the decoder. Proofs cite these and do not unfold the operations. -/

namespace Sys2Proof.Machine

/-! ### Register-index bytes -/

@[simp] theorem regByte_toNat (k : Fin 8) : (regByte k).toNat = k.val := by
  simp only [regByte, BitVec.toNat_ofNat]
  exact Nat.mod_eq_of_lt (Nat.lt_trans k.isLt (by decide))

theorem regByte_injective {j k : Fin 8} (h : regByte j = regByte k) : j = k :=
  Fin.ext (by simpa using congrArg BitVec.toNat h)

@[simp] theorem regByte_inj {j k : Fin 8} : regByte j = regByte k ↔ j = k :=
  ⟨regByte_injective, congrArg regByte⟩

/-- A byte of 0 to 7 is the byte of a register. -/
theorem exists_regByte_of_le (v : RegByte) (h : v.toNat ≤ 7) : ∃ k : Fin 8, v = regByte k :=
  ⟨⟨v.toNat, Nat.lt_succ_of_le h⟩, BitVec.eq_of_toNat_eq (by simp)⟩

/-- The register bytes are exactly the bytes of 0 to 7, all others are bad. -/
theorem regByte_or_bad (v : RegByte) : (∃ k : Fin 8, v = regByte k) ∨ 8 ≤ v.toNat := by
  by_cases h : v.toNat ≤ 7
  · exact .inl (exists_regByte_of_le v h)
  · exact .inr (by omega)

@[simp] theorem regOperand_regByte (p : Position) (k : Fin 8) : regOperand p (regByte k) = .ok k := by
  simp [regOperand]

theorem regOperand_bad (p : Position) (v : RegByte) (h : 8 ≤ v.toNat) :
    regOperand p v = .error (.badRegisterIndex p v) := by
  simp [regOperand, Nat.not_lt.2 h]

theorem names_regByte (k : Fin 8) : RegByte.names (regByte k) = true := by
  simp only [RegByte.names, regByte_toNat]
  exact decide_eq_true (Nat.le_of_lt_succ k.isLt)

/-! ### The PC -/

theorem advance_ok (len : Nat) (w : State) (h : w.pc.toNat + len ≤ 255) :
    advance len w = .ok (w.jump (BitVec.ofNat 8 (w.pc.toNat + len))) := by
  simp [advance, Config.maxAddr, h, State.jump]

theorem advance_error (len : Nat) (w : State) (h : 255 < w.pc.toNat + len) :
    advance len w = .error (.addressOutOfRange .nextPc (w.pc.toNat + len)) := by
  simp [advance, Config.maxAddr, Nat.not_le.2 h]

/-- Everything a sequential advance can do. -/
theorem advance_cases (len : Nat) (w : State) :
    (w.pc.toNat + len ≤ 255 ∧ advance len w = .ok (w.jump (BitVec.ofNat 8 (w.pc.toNat + len)))) ∨
    (255 < w.pc.toNat + len ∧ advance len w = .error (.addressOutOfRange .nextPc (w.pc.toNat + len))) := by
  by_cases h : w.pc.toNat + len ≤ 255
  · exact .inl ⟨h, advance_ok len w h⟩
  · exact .inr ⟨Nat.lt_of_not_le h, advance_error len w (Nat.lt_of_not_le h)⟩

/-- The next PC as a byte is the number it stands for. -/
theorem toNat_ofNat_byte (n : Nat) (h : n ≤ 255) : (BitVec.ofNat 8 n).toNat = n := by
  simp only [BitVec.toNat_ofNat]
  exact Nat.mod_eq_of_lt (Nat.lt_of_le_of_lt h (by decide))

/-- Adding a small number to a byte, as a byte. -/
theorem ofNat_toNat_add (b : Byte) (n : Nat) : BitVec.ofNat 8 (b.toNat + n) = b + BitVec.ofNat 8 n := by
  simp [BitVec.ofNat_add]

/-- Subtracting one from a byte that is not 0. -/
theorem ofNat_toNat_sub_one (b : Byte) (h : 1 ≤ b.toNat) : BitVec.ofNat 8 (b.toNat - 1) = b - 1 := by
  apply BitVec.eq_of_toNat_eq
  have := b.isLt
  have h1 : (1 : Byte).toNat = 1 := rfl
  simp only [BitVec.toNat_ofNat, BitVec.toNat_sub, h1]
  omega

theorem returnAddress_ok (s : State) (h : s.pc.toNat + 2 ≤ 255) :
    returnAddress s = .ok (BitVec.ofNat 8 (s.pc.toNat + 2)) := by
  simp [returnAddress, Config.maxAddr, h]

theorem returnAddress_error (s : State) (h : 255 < s.pc.toNat + 2) :
    returnAddress s = .error (.addressOutOfRange .returnAddress (s.pc.toNat + 2)) := by
  simp [returnAddress, Config.maxAddr, Nat.not_le.2 h]

/-! ### The stack pointer -/

theorem decSp_ok (w : State) (h : 1 ≤ w.sp.toNat) : decSp w = .ok (w.setSp (BitVec.ofNat 8 (w.sp.toNat - 1))) := by
  simp [decSp, h]

theorem decSp_error (w : State) (h : w.sp.toNat = 0) : decSp w = .error (.stackPointerOutOfRange w.sp .decrement) := by
  simp [decSp, h]

theorem incSp_ok (w : State) (h : w.sp.toNat + 1 ≤ 255) :
    incSp w = .ok (w.setSp (BitVec.ofNat 8 (w.sp.toNat + 1))) := by
  simp [incSp, Config.maxAddr, h]

theorem incSp_error (w : State) (h : 255 < w.sp.toNat + 1) :
    incSp w = .error (.stackPointerOutOfRange w.sp .increment) := by
  simp [incSp, Config.maxAddr, Nat.not_le.2 h]

/-! ### The end of an instruction -/

@[simp] theorem commit_ok (s w : State) (ir : Byte) : commit s ir (.ok w) = .next w := rfl

@[simp] theorem commit_error (s : State) (ir : Byte) (f : Fault) :
    commit s ir (.error f) = .next { s with status := .faulted { pc := s.pc, ir := ir, fault := f } } := rfl

/-- Everything the end of an instruction can do: it always answers a next state, which is the working copy, or the old state
with the status FAULTED. -/
theorem commit_cases (s : State) (ir : Byte) (h : Handler) :
    (∃ w, h = .ok w ∧ commit s ir h = .next w) ∨
    (∃ f, h = .error f ∧ commit s ir h = .next { s with status := .faulted { pc := s.pc, ir := ir, fault := f } }) := by
  cases h with
  | ok w => exact .inl ⟨w, rfl, rfl⟩
  | error f => exact .inr ⟨f, rfl, rfl⟩

@[simp] theorem except_bind_ok {ε α β : Type} (a : α) (f : α → Except ε β) :
    ((Except.ok a : Except ε α) >>= f) = f a := rfl

@[simp] theorem except_bind_error {ε α β : Type} (e : ε) (f : α → Except ε β) :
    ((Except.error e : Except ε α) >>= f) = .error e := rfl

/-! ### The handlers with good register bytes -/

theorem execLdi_regByte (r : Fin 8) (imm : Byte) (s : State) :
    execLdi (regByte r) imm s = commit s 0x82 (advance 3 (s.setReg r imm)) := by
  simp [execLdi, Instr.opcode]

theorem execPrn_regByte (r : Fin 8) (s : State) :
    execPrn (regByte r) s = commit s 0x47 (advance 2 (s.emit (s.reg r))) := by
  simp [execPrn, Instr.opcode]

theorem aluHandler_regByte (op : AluOp) (a b : Fin 8) (s : State) :
    aluHandler op (regByte a) (regByte b) s = advance 3 (s.aluWrite a (alu op (s.reg a) (s.reg b))) := by
  simp [aluHandler]

theorem execPush_regByte (r : Fin 8) (s : State) :
    execPush (regByte r) s = commit s 0x45 (decSp s >>= fun w => advance 2 (w.memWrite w.sp (w.reg r))) := by
  simp [execPush, Instr.opcode]

theorem execPop_regByte (r : Fin 8) (s : State) :
    execPop (regByte r) s = commit s 0x46 (incSp (s.setReg r (s.memRead s.sp)) >>= fun w => advance 2 w) := by
  simp [execPop, Instr.opcode]

theorem execCall_regByte (r : Fin 8) (s : State) :
    execCall (regByte r) s = commit s 0x50 (returnAddress s >>= fun ra => decSp s >>= fun w =>
      .ok ((w.memWrite w.sp ra).jump (w.reg r))) := by
  simp [execCall, Instr.opcode]

theorem execJmp_regByte (r : Fin 8) (s : State) : execJmp (regByte r) s = .next (s.jump (s.reg r)) := by
  simp [execJmp]

theorem execJeq_regByte (r : Fin 8) (s : State) :
    execJeq (regByte r) s = commit s 0x55 (branch s.fl.isEqual r s) := by
  simp [execJeq, Instr.opcode]

theorem execJne_regByte (r : Fin 8) (s : State) :
    execJne (regByte r) s = commit s 0x56 (branch (!s.fl.isEqual) r s) := by
  simp [execJne, Instr.opcode]

@[simp] theorem Flag.isEqual_iff (f : Flag) : f.isEqual = true ↔ f = .equal := by cases f <;> simp [Flag.isEqual]

/-! ### The decoder -/

/-- What bytes of format R decode to. -/
theorem decodeOne_eq_ok (build : Byte → Instr) (operands : List Byte) (i : Instr) :
    decodeOne build operands = .ok i ↔ ∃ r rest, operands = r :: rest ∧ i = build r := by
  cases operands with
  | nil => simp [decodeOne]
  | cons r rest => simp [decodeOne, eq_comm]

/-- What bytes of formats RR and RI decode to. -/
theorem decodeTwo_eq_ok (build : Byte → Byte → Instr) (operands : List Byte) (i : Instr) :
    decodeTwo build operands = .ok i ↔ ∃ a b rest, operands = a :: b :: rest ∧ i = build a b := by
  match operands with
  | [] => simp [decodeTwo]
  | [_] => simp [decodeTwo]
  | a :: b :: rest =>
    constructor
    · intro h; exact ⟨a, b, rest, rfl, (Except.ok.inj h).symm⟩
    · rintro ⟨_, _, _, h, rfl⟩; cases h; rfl

/-- The 13 opcode bytes of 30_encoding.md R64. -/
def opcodes : List Byte := [0x82, 0x47, 0x01, 0xA2, 0xA0, 0x45, 0x46, 0x50, 0x11, 0x54, 0xA7, 0x55, 0x56]

/-- Everything the decoder can do: one case per opcode byte, and the refusal of every other byte. -/
theorem decode_cases (op : Byte) (operands : List Byte) :
    (op = 0x82 ∧ decode op operands = decodeTwo .ldi operands) ∨
    (op = 0x47 ∧ decode op operands = decodeOne .prn operands) ∨
    (op = 0x01 ∧ decode op operands = .ok .hlt) ∨
    (op = 0xA2 ∧ decode op operands = decodeTwo .mul operands) ∨
    (op = 0xA0 ∧ decode op operands = decodeTwo .add operands) ∨
    (op = 0x45 ∧ decode op operands = decodeOne .push operands) ∨
    (op = 0x46 ∧ decode op operands = decodeOne .pop operands) ∨
    (op = 0x50 ∧ decode op operands = decodeOne .call operands) ∨
    (op = 0x11 ∧ decode op operands = .ok .ret) ∨
    (op = 0x54 ∧ decode op operands = decodeOne .jmp operands) ∨
    (op = 0xA7 ∧ decode op operands = decodeTwo .cmp operands) ∨
    (op = 0x55 ∧ decode op operands = decodeOne .jeq operands) ∨
    (op = 0x56 ∧ decode op operands = decodeOne .jne operands) ∨
    (op ∉ opcodes ∧ decode op operands = .error .unrecognizedOpcode) := by
  unfold decode
  by_cases h0 : op = 0x82
  · exact .inl ⟨h0, if_pos h0⟩
  rw [if_neg h0]; right
  by_cases h1 : op = 0x47
  · exact .inl ⟨h1, if_pos h1⟩
  rw [if_neg h1]; right
  by_cases h2 : op = 0x01
  · exact .inl ⟨h2, if_pos h2⟩
  rw [if_neg h2]; right
  by_cases h3 : op = 0xA2
  · exact .inl ⟨h3, if_pos h3⟩
  rw [if_neg h3]; right
  by_cases h4 : op = 0xA0
  · exact .inl ⟨h4, if_pos h4⟩
  rw [if_neg h4]; right
  by_cases h5 : op = 0x45
  · exact .inl ⟨h5, if_pos h5⟩
  rw [if_neg h5]; right
  by_cases h6 : op = 0x46
  · exact .inl ⟨h6, if_pos h6⟩
  rw [if_neg h6]; right
  by_cases h7 : op = 0x50
  · exact .inl ⟨h7, if_pos h7⟩
  rw [if_neg h7]; right
  by_cases h8 : op = 0x11
  · exact .inl ⟨h8, if_pos h8⟩
  rw [if_neg h8]; right
  by_cases h9 : op = 0x54
  · exact .inl ⟨h9, if_pos h9⟩
  rw [if_neg h9]; right
  by_cases h10 : op = 0xA7
  · exact .inl ⟨h10, if_pos h10⟩
  rw [if_neg h10]; right
  by_cases h11 : op = 0x55
  · exact .inl ⟨h11, if_pos h11⟩
  rw [if_neg h11]; right
  by_cases h12 : op = 0x56
  · exact .inl ⟨h12, if_pos h12⟩
  rw [if_neg h12]; right
  exact ⟨by simp only [opcodes, List.mem_cons, List.not_mem_nil, or_false, not_or]; exact ⟨h0, h1, h2, h3, h4, h5, h6, h7, h8, h9, h10, h11, h12⟩, rfl⟩

/-- The instruction the decoder reads has the opcode byte it was read from, so a fault record's `ir` is the byte at the PC. -/
theorem opcode_of_decode {op : Byte} {operands : List Byte} {i : Instr} (h : decode op operands = .ok i) :
    i.opcode = op := by
  rcases decode_cases op operands with ⟨rfl, e⟩ | ⟨rfl, e⟩ | ⟨rfl, e⟩ | ⟨rfl, e⟩ | ⟨rfl, e⟩ | ⟨rfl, e⟩ | ⟨rfl, e⟩ | ⟨rfl, e⟩ | ⟨rfl, e⟩ | ⟨rfl, e⟩ | ⟨rfl, e⟩ | ⟨rfl, e⟩ | ⟨rfl, e⟩ | ⟨-, e⟩ <;>
    rw [e] at h
  all_goals first
    | (obtain ⟨_, _, _, rfl⟩ := (decodeOne_eq_ok _ _ _).1 h; rfl)
    | (obtain ⟨_, _, _, _, rfl⟩ := (decodeTwo_eq_ok _ _ _).1 h; rfl)
    | (cases h; rfl)
    | cases h

end Sys2Proof.Machine
end

