-- ==== Sys2Proof/Laws/Exec.lean ====
section
/-! SUPPORT. One spec lemma per meaning: the state it answers when its own checks pass, and the fault it takes when a register
byte is bad. Proofs cite these and do not unfold the meanings. -/

namespace Sys2Proof.Machine

variable (r a b : Fin 8) (imm : Byte) (s : State)

/-! ### The checks pass -/

theorem execLdi_next (h : s.pc.toNat + 3 ≤ 255) :
    execLdi (regByte r) imm s = .next ((s.setReg r imm).jump (BitVec.ofNat 8 (s.pc.toNat + 3))) := by
  rw [execLdi_regByte, advance_ok 3 (s.setReg r imm) h]; rfl

theorem execPrn_next (h : s.pc.toNat + 2 ≤ 255) :
    execPrn (regByte r) s = .next ((s.emit (s.reg r)).jump (BitVec.ofNat 8 (s.pc.toNat + 2))) := by
  rw [execPrn_regByte, advance_ok 2 (s.emit (s.reg r)) h]; rfl

theorem execHlt_next : execHlt s = .next s.halt := rfl

/-- What the ALU's write leaves unchanged. -/
theorem State.aluWrite_pc (x : AluResult) : (s.aluWrite a x).pc = s.pc := by cases x <;> rfl

theorem aluHandler_ok (op : AluOp) (h : s.pc.toNat + 3 ≤ 255) :
    aluHandler op (regByte a) (regByte b) s =
      .ok ((s.aluWrite a (alu op (s.reg a) (s.reg b))).jump (BitVec.ofNat 8 (s.pc.toNat + 3))) := by
  rw [aluHandler_regByte, advance_ok _ _ (by rw [State.aluWrite_pc]; exact h), State.aluWrite_pc]

theorem execAdd_next (h : s.pc.toNat + 3 ≤ 255) :
    execAdd (regByte a) (regByte b) s =
      .next ((s.setReg a (BitVec.ofNat 8 ((s.reg a).toNat + (s.reg b).toNat))).jump
        (BitVec.ofNat 8 (s.pc.toNat + 3))) := by
  rw [execAdd, aluHandler_ok a b s .add h]; rfl

theorem execMul_next (h : s.pc.toNat + 3 ≤ 255) :
    execMul (regByte a) (regByte b) s =
      .next ((s.setReg a (BitVec.ofNat 8 ((s.reg a).toNat * (s.reg b).toNat))).jump
        (BitVec.ofNat 8 (s.pc.toNat + 3))) := by
  rw [execMul, aluHandler_ok a b s .mul h]; rfl

theorem execCmp_next (h : s.pc.toNat + 3 ≤ 255) :
    execCmp (regByte a) (regByte b) s =
      .next ((s.setFl (compareFlag (s.reg a) (s.reg b))).jump (BitVec.ofNat 8 (s.pc.toNat + 3))) := by
  rw [execCmp, aluHandler_ok a b s .cmp h]; rfl

theorem execPush_next (h : 1 ≤ s.sp.toNat) (h2 : s.pc.toNat + 2 ≤ 255) :
    execPush (regByte r) s =
      .next (((s.setSp (BitVec.ofNat 8 (s.sp.toNat - 1))).memWrite (BitVec.ofNat 8 (s.sp.toNat - 1))
        ((s.setSp (BitVec.ofNat 8 (s.sp.toNat - 1))).reg r)).jump (BitVec.ofNat 8 (s.pc.toNat + 2))) := by
  rw [execPush_regByte, decSp_ok s h, except_bind_ok, State.setSp_sp,
    advance_ok 2 ((s.setSp (BitVec.ofNat 8 (s.sp.toNat - 1))).memWrite _ _) h2]
  rfl

/-- The SP that POP increments: the popped byte for POP R7 (43_stack.md R132). -/
theorem sp_after_pop_write (v : Byte) : (s.setReg r v).sp = if r = spIndex then v else s.sp := by
  simp only [State.sp, State.reg_setReg, eq_comm]

theorem execPop_next (h : (if r = spIndex then s.memRead s.sp else s.sp).toNat + 1 ≤ 255) (h2 : s.pc.toNat + 2 ≤ 255) :
    execPop (regByte r) s =
      .next (((s.setReg r (s.memRead s.sp)).setSp
        (BitVec.ofNat 8 ((if r = spIndex then s.memRead s.sp else s.sp).toNat + 1))).jump
          (BitVec.ofNat 8 (s.pc.toNat + 2))) := by
  rw [← sp_after_pop_write r s] at h ⊢
  rw [execPop_regByte, incSp_ok _ h, except_bind_ok,
    advance_ok 2 ((s.setReg r (s.memRead s.sp)).setSp _) h2]
  rfl

theorem execCall_next (h : s.pc.toNat + 2 ≤ 255) (h2 : 1 ≤ s.sp.toNat) :
    execCall (regByte r) s =
      .next (((s.setSp (BitVec.ofNat 8 (s.sp.toNat - 1))).memWrite (BitVec.ofNat 8 (s.sp.toNat - 1))
        (BitVec.ofNat 8 (s.pc.toNat + 2))).jump ((s.setSp (BitVec.ofNat 8 (s.sp.toNat - 1))).reg r)) := by
  rw [execCall_regByte, returnAddress_ok s h, decSp_ok s h2, except_bind_ok, except_bind_ok, State.setSp_sp]
  rfl

theorem execRet_next (h : s.sp.toNat + 1 ≤ 255) :
    execRet s = .next ((s.setSp (BitVec.ofNat 8 (s.sp.toNat + 1))).jump (s.memRead s.sp)) := by
  rw [execRet, incSp_ok s h]; rfl

theorem branch_taken : branch true r s = .ok (s.jump (s.reg r)) := rfl

theorem branch_not_taken (h : s.pc.toNat + 2 ≤ 255) :
    branch false r s = .ok (s.jump (BitVec.ofNat 8 (s.pc.toNat + 2))) := by
  rw [branch, if_neg (by decide), advance_ok 2 s h]

theorem execJeq_taken (e : s.fl = .equal) : execJeq (regByte r) s = .next (s.jump (s.reg r)) := by
  rw [execJeq_regByte, (Flag.isEqual_iff _).2 e]; rfl

theorem Flag.isEqual_eq_false {f : Flag} (e : f ≠ .equal) : f.isEqual = false := by
  cases f <;> first | rfl | exact absurd rfl e

theorem execJeq_not_taken (e : s.fl ≠ .equal) (h : s.pc.toNat + 2 ≤ 255) :
    execJeq (regByte r) s = .next (s.jump (BitVec.ofNat 8 (s.pc.toNat + 2))) := by
  rw [execJeq_regByte, Flag.isEqual_eq_false e, branch_not_taken r s h]; rfl

theorem execJne_taken (e : s.fl ≠ .equal) : execJne (regByte r) s = .next (s.jump (s.reg r)) := by
  rw [execJne_regByte, Flag.isEqual_eq_false e]; rfl

theorem execJne_not_taken (e : s.fl = .equal) (h : s.pc.toNat + 2 ≤ 255) :
    execJne (regByte r) s = .next (s.jump (BitVec.ofNat 8 (s.pc.toNat + 2))) := by
  rw [execJne_regByte, (Flag.isEqual_iff _).2 e]
  exact congrArg (commit s 0x56) (branch_not_taken r s h)

/-! ### The first bad register byte -/

theorem aluHandler_bad1 (op : AluOp) (v w : RegByte) (h : 8 ≤ v.toNat) :
    aluHandler op v w s = .error (.badRegisterIndex .byte1 v) := by
  rw [aluHandler, regOperand_bad .byte1 v h]; rfl

theorem aluHandler_bad2 (op : AluOp) (w : RegByte) (h : 8 ≤ w.toNat) :
    aluHandler op (regByte a) w s = .error (.badRegisterIndex .byte2 w) := by
  rw [aluHandler, regOperand_regByte, regOperand_bad .byte2 w h]; rfl

/-- A bad register byte 1 is reported by every instruction that has one, whatever its own effect would be. -/
theorem exec_bad1 (v : RegByte) (h : 8 ≤ v.toNat) (i : Instr)
    (hi : (∃ imm, i = .ldi v imm) ∨ i = .prn v ∨ (∃ w, i = .mul v w) ∨ (∃ w, i = .add v w) ∨ i = .push v ∨ i = .pop v ∨
      i = .call v ∨ i = .jmp v ∨ (∃ w, i = .cmp v w) ∨ i = .jeq v ∨ i = .jne v) :
    exec i s = .next { s with status := .faulted { pc := s.pc, ir := i.opcode, fault := .badRegisterIndex .byte1 v } } := by
  have e := regOperand_bad .byte1 v h
  rcases hi with ⟨_, rfl⟩ | rfl | ⟨_, rfl⟩ | ⟨_, rfl⟩ | rfl | rfl | rfl | rfl | ⟨_, rfl⟩ | rfl | rfl <;>
    simp only [exec, execLdi, execPrn, execMul, execAdd, execPush, execPop, execCall, execJmp, execCmp, execJeq, execJne,
      aluHandler_bad1 s _ v _ h, e, except_bind_error, commit_error]

/-! ### Everything an instruction can do -/

/-- `Completed s i t`: instruction `i`, with good register bytes and with its own checks passing in `s`, leaves `t`. -/
inductive Completed (s : State) : Instr → State → Prop where
  | ldi (r : Fin 8) (imm : Byte) (h : s.pc.toNat + 3 ≤ 255) :
      Completed s (.ldi (regByte r) imm) ((s.setReg r imm).jump (BitVec.ofNat 8 (s.pc.toNat + 3)))
  | prn (r : Fin 8) (h : s.pc.toNat + 2 ≤ 255) :
      Completed s (.prn (regByte r)) ((s.emit (s.reg r)).jump (BitVec.ofNat 8 (s.pc.toNat + 2)))
  | hlt : Completed s .hlt s.halt
  | mul (a b : Fin 8) (h : s.pc.toNat + 3 ≤ 255) :
      Completed s (.mul (regByte a) (regByte b))
        ((s.setReg a (BitVec.ofNat 8 ((s.reg a).toNat * (s.reg b).toNat))).jump (BitVec.ofNat 8 (s.pc.toNat + 3)))
  | add (a b : Fin 8) (h : s.pc.toNat + 3 ≤ 255) :
      Completed s (.add (regByte a) (regByte b))
        ((s.setReg a (BitVec.ofNat 8 ((s.reg a).toNat + (s.reg b).toNat))).jump (BitVec.ofNat 8 (s.pc.toNat + 3)))
  | push (r : Fin 8) (h : 1 ≤ s.sp.toNat) (h2 : s.pc.toNat + 2 ≤ 255) :
      Completed s (.push (regByte r))
        (((s.setSp (BitVec.ofNat 8 (s.sp.toNat - 1))).memWrite (BitVec.ofNat 8 (s.sp.toNat - 1))
          ((s.setSp (BitVec.ofNat 8 (s.sp.toNat - 1))).reg r)).jump (BitVec.ofNat 8 (s.pc.toNat + 2)))
  | pop (r : Fin 8) (h : (if r = spIndex then s.memRead s.sp else s.sp).toNat + 1 ≤ 255) (h2 : s.pc.toNat + 2 ≤ 255) :
      Completed s (.pop (regByte r))
        (((s.setReg r (s.memRead s.sp)).setSp
          (BitVec.ofNat 8 ((if r = spIndex then s.memRead s.sp else s.sp).toNat + 1))).jump
            (BitVec.ofNat 8 (s.pc.toNat + 2)))
  | call (r : Fin 8) (h : s.pc.toNat + 2 ≤ 255) (h2 : 1 ≤ s.sp.toNat) :
      Completed s (.call (regByte r))
        (((s.setSp (BitVec.ofNat 8 (s.sp.toNat - 1))).memWrite (BitVec.ofNat 8 (s.sp.toNat - 1))
          (BitVec.ofNat 8 (s.pc.toNat + 2))).jump ((s.setSp (BitVec.ofNat 8 (s.sp.toNat - 1))).reg r))
  | ret (h : s.sp.toNat + 1 ≤ 255) :
      Completed s .ret ((s.setSp (BitVec.ofNat 8 (s.sp.toNat + 1))).jump (s.memRead s.sp))
  | jmp (r : Fin 8) : Completed s (.jmp (regByte r)) (s.jump (s.reg r))
  | cmp (a b : Fin 8) (h : s.pc.toNat + 3 ≤ 255) :
      Completed s (.cmp (regByte a) (regByte b))
        ((s.setFl (compareFlag (s.reg a) (s.reg b))).jump (BitVec.ofNat 8 (s.pc.toNat + 3)))
  | jeqTaken (r : Fin 8) (e : s.fl = .equal) : Completed s (.jeq (regByte r)) (s.jump (s.reg r))
  | jeqNotTaken (r : Fin 8) (e : s.fl ≠ .equal) (h : s.pc.toNat + 2 ≤ 255) :
      Completed s (.jeq (regByte r)) (s.jump (BitVec.ofNat 8 (s.pc.toNat + 2)))
  | jneTaken (r : Fin 8) (e : s.fl ≠ .equal) : Completed s (.jne (regByte r)) (s.jump (s.reg r))
  | jneNotTaken (r : Fin 8) (e : s.fl = .equal) (h : s.pc.toNat + 2 ≤ 255) :
      Completed s (.jne (regByte r)) (s.jump (BitVec.ofNat 8 (s.pc.toNat + 2)))

/-- A completed instruction's state is what `exec` answers. -/
theorem Completed.exec_eq {s t : State} {i : Instr} (h : Completed s i t) : exec i s = .next t := by
  cases h with
  | ldi r imm h => exact execLdi_next r imm s h
  | prn r h => exact execPrn_next r s h
  | hlt => rfl
  | mul a b h => exact execMul_next a b s h
  | add a b h => exact execAdd_next a b s h
  | push r h h2 => exact execPush_next r s h h2
  | pop r h h2 => exact execPop_next r s h h2
  | call r h h2 => exact execCall_next r s h h2
  | ret h => exact execRet_next s h
  | jmp r => exact execJmp_regByte r s
  | cmp a b h => exact execCmp_next a b s h
  | jeqTaken r e => exact execJeq_taken r s e
  | jeqNotTaken r e h => exact execJeq_not_taken r s e h
  | jneTaken r e => exact execJne_taken r s e
  | jneNotTaken r e h => exact execJne_not_taken r s e h

/-- The state before the instruction with the status FAULTED, as a handler of `i` leaves it. -/
def State.faultedAt (s : State) (i : Instr) (f : Fault) : State :=
  { s with status := .faulted { pc := s.pc, ir := i.opcode, fault := f } }

/-- Everything a handler can do: take a fault, or complete. -/
theorem exec_cases (i : Instr) (s : State) :
    (∃ f, exec i s = .next (s.faultedAt i f)) ∨ ∃ t, Completed s i t := by
  have bad1 : ∀ v : RegByte, 8 ≤ v.toNat → _ := fun v h => exec_bad1 s v h i
  have pc3 := Nat.lt_or_ge 255 (s.pc.toNat + 3)
  have pc2 := Nat.lt_or_ge 255 (s.pc.toNat + 2)
  have alu3 : ∀ (op : AluOp) (a b : RegByte), 8 ≤ a.toNat ∨ 8 ≤ b.toNat ∨ 255 < s.pc.toNat + 3 →
      ∃ f, aluHandler op a b s = .error f := by
    intro op a b h
    rcases regByte_or_bad a with ⟨a, rfl⟩ | ha
    · rcases regByte_or_bad b with ⟨b, rfl⟩ | hb
      · have h : 255 < s.pc.toNat + 3 := by
          have ha := a.isLt; have hb := b.isLt
          rcases h with h | h | h
          · rw [regByte_toNat] at h; omega
          · rw [regByte_toNat] at h; omega
          · exact h
        exact ⟨_, by rw [aluHandler_regByte, advance_error _ _ (by rw [State.aluWrite_pc]; exact h)]⟩
      · exact ⟨_, aluHandler_bad2 a s op b hb⟩
    · exact ⟨_, aluHandler_bad1 s op a b ha⟩
  have aluCase : ∀ a b : RegByte, (8 ≤ a.toNat ∨ 8 ≤ b.toNat ∨ 255 < s.pc.toNat + 3) ∨
      ∃ k l : Fin 8, a = regByte k ∧ b = regByte l ∧ s.pc.toNat + 3 ≤ 255 := by
    intro a b
    rcases regByte_or_bad a with ⟨k, rfl⟩ | ha
    · rcases regByte_or_bad b with ⟨l, rfl⟩ | hb
      · rcases pc3 with h | h
        · exact .inl (.inr (.inr h))
        · exact .inr ⟨k, l, rfl, rfl, h⟩
      · exact .inl (.inr (.inl hb))
    · exact .inl (.inl ha)
  cases i with
  | ldi r imm =>
    rcases regByte_or_bad r with ⟨k, rfl⟩ | hr
    · rcases pc3 with h | h
      · exact .inl ⟨_, by rw [exec, execLdi_regByte, advance_error 3 (s.setReg k imm) h]; rfl⟩
      · exact .inr ⟨_, .ldi k imm h⟩
    · exact .inl ⟨_, bad1 r hr (by simp)⟩
  | prn r =>
    rcases regByte_or_bad r with ⟨k, rfl⟩ | hr
    · rcases pc2 with h | h
      · exact .inl ⟨_, by rw [exec, execPrn_regByte, advance_error 2 (s.emit _) h]; rfl⟩
      · exact .inr ⟨_, .prn k h⟩
    · exact .inl ⟨_, bad1 r hr (by simp)⟩
  | hlt => exact .inr ⟨_, .hlt⟩
  | mul a b =>
    rcases aluCase a b with h | ⟨k, l, rfl, rfl, h⟩
    · obtain ⟨f, e⟩ := alu3 .mul a b h
      exact .inl ⟨f, by rw [exec, execMul, e]; rfl⟩
    · exact .inr ⟨_, .mul k l h⟩
  | add a b =>
    rcases aluCase a b with h | ⟨k, l, rfl, rfl, h⟩
    · obtain ⟨f, e⟩ := alu3 .add a b h
      exact .inl ⟨f, by rw [exec, execAdd, e]; rfl⟩
    · exact .inr ⟨_, .add k l h⟩
  | push r =>
    rcases regByte_or_bad r with ⟨k, rfl⟩ | hr
    · rcases Nat.eq_zero_or_pos s.sp.toNat with h | h
      · exact .inl ⟨_, by rw [exec, execPush_regByte, decSp_error s h]; rfl⟩
      · rcases pc2 with h2 | h2
        · exact .inl ⟨_, by
            rw [exec, execPush_regByte, decSp_ok s h, except_bind_ok,
              advance_error 2 ((s.setSp _).memWrite _ _) h2]; rfl⟩
        · exact .inr ⟨_, .push k h h2⟩
    · exact .inl ⟨_, bad1 r hr (by simp)⟩
  | pop r =>
    rcases regByte_or_bad r with ⟨k, rfl⟩ | hr
    · rcases Nat.lt_or_ge 255 ((if k = spIndex then s.memRead s.sp else s.sp).toNat + 1) with h | h
      · rw [← sp_after_pop_write k s] at h
        exact .inl ⟨_, by rw [exec, execPop_regByte, incSp_error _ h]; rfl⟩
      · rcases pc2 with h2 | h2
        · rw [← sp_after_pop_write k s] at h
          exact .inl ⟨_, by
            rw [exec, execPop_regByte, incSp_ok _ h, except_bind_ok,
              advance_error 2 ((s.setReg k (s.memRead s.sp)).setSp _) h2]; rfl⟩
        · exact .inr ⟨_, .pop k h h2⟩
    · exact .inl ⟨_, bad1 r hr (by simp)⟩
  | call r =>
    rcases regByte_or_bad r with ⟨k, rfl⟩ | hr
    · rcases pc2 with h | h
      · exact .inl ⟨_, by rw [exec, execCall_regByte, returnAddress_error s h]; rfl⟩
      · rcases Nat.eq_zero_or_pos s.sp.toNat with h2 | h2
        · exact .inl ⟨_, by rw [exec, execCall_regByte, returnAddress_ok s h, decSp_error s h2]; rfl⟩
        · exact .inr ⟨_, .call k h h2⟩
    · exact .inl ⟨_, bad1 r hr (by simp)⟩
  | ret =>
    rcases Nat.lt_or_ge 255 (s.sp.toNat + 1) with h | h
    · exact .inl ⟨_, by rw [exec, execRet, incSp_error s h]; rfl⟩
    · exact .inr ⟨_, .ret h⟩
  | jmp r =>
    rcases regByte_or_bad r with ⟨k, rfl⟩ | hr
    · exact .inr ⟨_, .jmp k⟩
    · exact .inl ⟨_, bad1 r hr (by simp)⟩
  | cmp a b =>
    rcases aluCase a b with h | ⟨k, l, rfl, rfl, h⟩
    · obtain ⟨f, e⟩ := alu3 .cmp a b h
      exact .inl ⟨f, by rw [exec, execCmp, e]; rfl⟩
    · exact .inr ⟨_, .cmp k l h⟩
  | jeq r =>
    rcases regByte_or_bad r with ⟨k, rfl⟩ | hr
    · by_cases e : s.fl = .equal
      · exact .inr ⟨_, .jeqTaken k e⟩
      · rcases pc2 with h | h
        · exact .inl ⟨_, by
            rw [exec, execJeq_regByte, Flag.isEqual_eq_false e, branch, if_neg (by decide), advance_error 2 s h]; rfl⟩
        · exact .inr ⟨_, .jeqNotTaken k e h⟩
    · exact .inl ⟨_, bad1 r hr (by simp)⟩
  | jne r =>
    rcases regByte_or_bad r with ⟨k, rfl⟩ | hr
    · by_cases e : s.fl = .equal
      · rcases pc2 with h | h
        · exact .inl ⟨_, by
            rw [exec, execJne_regByte, (Flag.isEqual_iff _).2 e, branch, if_neg (by decide), advance_error 2 s h]; rfl⟩
        · exact .inr ⟨_, .jneNotTaken k e h⟩
      · exact .inr ⟨_, .jneTaken k e⟩
    · exact .inl ⟨_, bad1 r hr (by simp)⟩

/-- The inversion of a handler's next state. -/
theorem exec_next_cases {i : Instr} {s t : State} (h : exec i s = .next t) :
    (∃ f, t = s.faultedAt i f) ∨ Completed s i t := by
  rcases exec_cases i s with ⟨f, e⟩ | ⟨u, c⟩
  · exact .inl ⟨f, (Host.Outcome.next.inj (e.symm.trans h)).symm⟩
  · exact .inr (Host.Outcome.next.inj (c.exec_eq.symm.trans h) ▸ c)

end Sys2Proof.Machine
end

