-- ==== Sys2Proof/Laws/PerInstr.lean ====
section
/-! SUPPORT. Statements about every instruction as syntax, one lemma per constructor. -/

namespace Sys2Proof.Laws.OpcodePatterns

/-- The patterns of 30_encoding.md R62, which hold of the 13 encodings and which the decoder does not use: bits 7:6 are the
number of operand bytes, bit 5 marks ADD, MUL and CMP, bit 4 marks CALL, RET, JMP, JEQ and JNE; and the instruction is one
byte longer than its operands (R60). -/
def Statement (i : Instr) : Prop :=
  (i.opcode.extractLsb' 6 2).toNat = i.operandBytes.length ∧
  (i.opcode.getLsbD 5 = match i with
    | .add _ _ | .mul _ _ | .cmp _ _ => true
    | .ldi _ _ | .prn _ | .hlt | .push _ | .pop _ | .call _ | .ret | .jmp _ | .jeq _ | .jne _ => false) ∧
  (i.opcode.getLsbD 4 = match i with
    | .call _ | .ret | .jmp _ | .jeq _ | .jne _ => true
    | .ldi _ _ | .prn _ | .hlt | .mul _ _ | .add _ _ | .push _ | .pop _ | .cmp _ _ => false) ∧
  i.length = i.operandBytes.length + 1

theorem ldi (r : RegByte) (imm : Byte) : Statement (.ldi r imm) := by simp [Statement, Instr.opcode, Instr.operandBytes, Instr.length]
theorem prn (r : RegByte) : Statement (.prn r) := by simp [Statement, Instr.opcode, Instr.operandBytes, Instr.length]
theorem hlt : Statement .hlt := by simp [Statement, Instr.opcode, Instr.operandBytes, Instr.length]
theorem mul (a b : RegByte) : Statement (.mul a b) := by simp [Statement, Instr.opcode, Instr.operandBytes, Instr.length]
theorem add (a b : RegByte) : Statement (.add a b) := by simp [Statement, Instr.opcode, Instr.operandBytes, Instr.length]
theorem push (r : RegByte) : Statement (.push r) := by simp [Statement, Instr.opcode, Instr.operandBytes, Instr.length]
theorem pop (r : RegByte) : Statement (.pop r) := by simp [Statement, Instr.opcode, Instr.operandBytes, Instr.length]
theorem call (r : RegByte) : Statement (.call r) := by simp [Statement, Instr.opcode, Instr.operandBytes, Instr.length]
theorem ret : Statement .ret := by simp [Statement, Instr.opcode, Instr.operandBytes, Instr.length]
theorem jmp (r : RegByte) : Statement (.jmp r) := by simp [Statement, Instr.opcode, Instr.operandBytes, Instr.length]
theorem cmp (a b : RegByte) : Statement (.cmp a b) := by simp [Statement, Instr.opcode, Instr.operandBytes, Instr.length]
theorem jeq (r : RegByte) : Statement (.jeq r) := by simp [Statement, Instr.opcode, Instr.operandBytes, Instr.length]
theorem jne (r : RegByte) : Statement (.jne r) := by simp [Statement, Instr.opcode, Instr.operandBytes, Instr.length]

end Sys2Proof.Laws.OpcodePatterns
end

