-- ==== Sys2Proof/Laws/Step.lean ====
section
/-! SUPPORT. The spec lemmas of the fetch unit and of the step. -/

namespace Sys2Proof.Machine

variable (s : State)

/-! ### Fetch -/

theorem operandByte_some (k : Nat) (h : s.pc.toNat + k ≤ 255) : s.operandByte k = some (s.operand k) := by
  simp [State.operandByte, State.operand, Config.maxAddr, h]

theorem operandByte_none (k : Nat) (h : 255 < s.pc.toNat + k) : s.operandByte k = none := by
  simp [State.operandByte, Config.maxAddr, Nat.not_le.2 h]

/-- Both bytes after the opcode byte exist. -/
theorem fetchOperands_two (h : s.pc.toNat ≤ 253) : s.fetchOperands = [s.operand 1, s.operand 2] := by
  simp only [State.fetchOperands, operandByte_some s 1 (by omega), operandByte_some s 2 (by omega)]

/-- The opcode byte is the last but one of memory. -/
theorem fetchOperands_one (h : s.pc.toNat = 254) : s.fetchOperands = [s.operand 1] := by
  simp only [State.fetchOperands, operandByte_some s 1 (by omega), operandByte_none s 2 (by omega)]

/-- The opcode byte is the last of memory. -/
theorem fetchOperands_none (h : s.pc.toNat = 255) : s.fetchOperands = [] := by
  simp only [State.fetchOperands, operandByte_none s 1 (by omega)]

/-- Where the PC stands relative to the end of memory, and what is then fetched. -/
theorem fetchOperands_cases :
    (s.pc.toNat ≤ 253 ∧ s.fetchOperands = [s.operand 1, s.operand 2]) ∨
    (s.pc.toNat = 254 ∧ s.fetchOperands = [s.operand 1]) ∨ (s.pc.toNat = 255 ∧ s.fetchOperands = []) := by
  have := s.pc.isLt
  rcases Nat.lt_trichotomy s.pc.toNat 254 with h | h | h
  · exact .inl ⟨by omega, fetchOperands_two s (by omega)⟩
  · exact .inr (.inl ⟨h, fetchOperands_one s h⟩)
  · exact .inr (.inr ⟨by omega, fetchOperands_none s (by omega)⟩)

/-! ### The step -/

/-- A step of a RUNNING core, by what the bytes at the PC decode to. -/
theorem step_running (h : s.status = .running) :
    step s = match decode s.fetchOpcode s.fetchOperands with
      | .ok i => exec i s
      | .error e => raiseDecode s e := by
  cases s; cases h; rfl

/-- A step of a stopped core. -/
theorem step_stopped (h : s.status ≠ .running) : step s = .next s := by
  unfold step
  split
  · exact absurd (by assumption) h
  · rfl
  · rfl

@[simp] theorem raiseDecode_unrecognized : raiseDecode s .unrecognizedOpcode = .next (s.faultedBy .unrecognizedOpcode) := rfl

@[simp] theorem raiseDecode_missing (k : Nat) :
    raiseDecode s (.missingOperand k) =
      .next (s.faultedBy (.addressOutOfRange .operandFetch (s.pc.toNat + k))) := rfl

/-- The opcode byte of format R: the three cases of what follows it. -/
theorem step_formatR (op : Byte) (build : Byte → Instr) (hs : s.status = .running) (ho : s.memRead s.pc = op)
    (hd : ∀ operands, decode op operands = decodeOne build operands) :
    (s.pc.toNat = 255 → step s = .next (s.faultedBy (.addressOutOfRange .operandFetch 256))) ∧
    (s.pc.toNat ≤ 254 → step s = exec (build (s.operand 1)) s) := by
  have e : decode s.fetchOpcode s.fetchOperands = decodeOne build s.fetchOperands := by
    rw [State.fetchOpcode, ho]; exact hd _
  rw [step_running s hs, e]
  constructor
  · intro h
    rw [fetchOperands_none s h]
    simp [decodeOne, h]
  · intro h
    rcases fetchOperands_cases s with ⟨_, f⟩ | ⟨_, f⟩ | ⟨h', _⟩
    · rw [f]; rfl
    · rw [f]; rfl
    · omega

/-- The opcode byte of formats RR and RI. -/
theorem step_formatTwo (op : Byte) (build : Byte → Byte → Instr) (hs : s.status = .running) (ho : s.memRead s.pc = op)
    (hd : ∀ operands, decode op operands = decodeTwo build operands) :
    (254 ≤ s.pc.toNat → step s = .next (s.faultedBy (.addressOutOfRange .operandFetch 256))) ∧
    (s.pc.toNat ≤ 253 → step s = exec (build (s.operand 1) (s.operand 2)) s) := by
  have e : decode s.fetchOpcode s.fetchOperands = decodeTwo build s.fetchOperands := by
    rw [State.fetchOpcode, ho]; exact hd _
  rw [step_running s hs, e]
  constructor
  · intro h
    rcases fetchOperands_cases s with ⟨h', _⟩ | ⟨h', f⟩ | ⟨h', f⟩
    · omega
    · rw [f]; simp [decodeTwo, h']
    · rw [f]; simp [decodeTwo, h']
  · intro h
    rw [fetchOperands_two s h]
    rfl

/-! ### Runs -/

/-- A run of no steps. -/
theorem host_run_zero (M : Host.Core) (s : M.State) : M.run 0 s = .next s := rfl

/-- The first step of a run of a machine. -/
theorem host_run_succ (M : Host.Core) (n : Nat) (s t : M.State) (h : M.step s = .next t) :
    M.run (n + 1) s = M.run n t := by
  simp only [Host.Core.run, h]

/-- The first step of a run of the core. -/
theorem run_succ (n : Nat) (s t : State) (h : step s = .next t) :
    Sys2Proof.core.run (n + 1) s = Sys2Proof.core.run n t :=
  host_run_succ Sys2Proof.core n s t h

/-- What a step of a RUNNING core can do: take the fault of bytes that are no instruction, or run the handler of the
instruction that is there, whose opcode byte is the one at the PC. -/
theorem step_cases {s t : State} (hs : s.status = .running) (h : step s = .next t) :
    (∃ e, decode s.fetchOpcode s.fetchOperands = .error e ∧ t = s.faultedBy (decodeFault s e)) ∨
    (∃ i, decode s.fetchOpcode s.fetchOperands = .ok i ∧ i.opcode = s.memRead s.pc ∧ exec i s = .next t) := by
  rw [step_running s hs] at h
  cases e : decode s.fetchOpcode s.fetchOperands with
  | ok i => rw [e] at h; exact .inr ⟨i, rfl, opcode_of_decode e, h⟩
  | error e' => rw [e] at h; exact .inl ⟨e', rfl, (Host.Outcome.next.inj h).symm⟩

end Sys2Proof.Machine
end

