-- ==== Sys2Proof/Machine/Assembly.lean ====
section
/-! DEFINITION. The assembly text of an instruction, in the spec's own notation (30_encoding.md R69). It is no part of the machine:
nothing reads it (log 13). -/

namespace Sys2Proof.Machine

/-- A register operand, `R<n>` (R69). -/
def asmReg (r : RegByte) : List Char := 'R' :: decimalDigits r.toNat

/-- The assembly text of an instruction: the mnemonic in upper case and the operands in encoding order, with a comma
between two; LDI's immediate in decimal (R69). -/
def asm : Instr → List Char
  | .ldi r imm => ['L', 'D', 'I', ' '] ++ asmReg r ++ [','] ++ decimalDigits imm.toNat
  | .prn r => ['P', 'R', 'N', ' '] ++ asmReg r
  | .hlt => ['H', 'L', 'T']
  | .mul a b => ['M', 'U', 'L', ' '] ++ asmReg a ++ [','] ++ asmReg b
  | .add a b => ['A', 'D', 'D', ' '] ++ asmReg a ++ [','] ++ asmReg b
  | .push r => ['P', 'U', 'S', 'H', ' '] ++ asmReg r
  | .pop r => ['P', 'O', 'P', ' '] ++ asmReg r
  | .call r => ['C', 'A', 'L', 'L', ' '] ++ asmReg r
  | .ret => ['R', 'E', 'T']
  | .jmp r => ['J', 'M', 'P', ' '] ++ asmReg r
  | .cmp a b => ['C', 'M', 'P', ' '] ++ asmReg a ++ [','] ++ asmReg b
  | .jeq r => ['J', 'E', 'Q', ' '] ++ asmReg r
  | .jne r => ['J', 'N', 'E', ' '] ++ asmReg r

end Sys2Proof.Machine
end

