-- ==== Sys2Proof/Tests/Slice0.lean ====
section
/-! SUPPORT. The model's own tests. T1 to T62 are the vectors of spec/95_test_vectors.md, with the numbers the spec gives. Every
test is about one step from a small state. The theorems named witness_… meet the hypotheses of the obligations. -/

namespace Sys2Proof.Tests
open Sys2Proof Sys2Proof.Machine

/-- The reset state with the PC at `pc`, `bytes` stored there, and the registers, cells and FL given. -/
def st (pc : Byte) (bytes : List Byte) (regs : List (Fin 8 × Byte)) (cells : List (Byte × Byte)) (fl : Flag) : State :=
  let s := ({ State.reset with pc := pc, fl := fl } : State).placeBytes pc.toNat bytes
  let s := regs.foldl (fun s r => s.setReg r.1 r.2) s
  cells.foldl (fun s c => s.memWrite c.1 c.2) s

/-- The reset state with the PC at `pc` and `bytes` stored there. -/
def prog (pc : Byte) (bytes : List Byte) : State := st pc bytes [] [] .clear

/-- The same with some registers set. -/
def progR (pc : Byte) (bytes : List Byte) (regs : List (Fin 8 × Byte)) : State := st pc bytes regs [] .clear

/-- The outcome is the next state `t`. -/
def nextIs (o : Outcome) (t : State) : Bool :=
  match o with
  | .next u => decide (u = t)
  | .fault _ | .refused _ => false

/-- The step from `s` takes fault `f`, with the record (pc, ir, f), and changes nothing else. -/
def faults (s : State) (pc ir : Byte) (f : Fault) : Bool :=
  nextIs (step s) { s with status := .faulted { pc := pc, ir := ir, fault := f } }

/-! ### Well-formed instructions -/

/-- The check refuses a register byte above 7 in every place that has one. -/
theorem test_wf_refuses :
    (Instr.ldi 8 0).wf = false ∧ (Instr.prn 8).wf = false ∧ (Instr.mul 8 0).wf = false ∧ (Instr.mul 0 8).wf = false ∧
    (Instr.add 255 0).wf = false ∧ (Instr.add 7 255).wf = false ∧ (Instr.push 8).wf = false ∧ (Instr.pop 128).wf = false ∧
    (Instr.call 8).wf = false ∧ (Instr.jmp 255).wf = false ∧ (Instr.cmp 8 7).wf = false ∧ (Instr.cmp 7 8).wf = false ∧
    (Instr.jeq 8).wf = false ∧ (Instr.jne 8).wf = false := by decide

/-- It lets 0 to 7 pass, any immediate of LDI, and the instructions without operands. -/
theorem test_wf_accepts :
    (Instr.ldi 7 255).wf = true ∧ (Instr.prn 0).wf = true ∧ Instr.hlt.wf = true ∧ (Instr.mul 7 7).wf = true ∧
    (Instr.ret).wf = true ∧ (Instr.cmp 0 7).wf = true := by decide

/-! ### Decoding: words written bit by bit from the encodings of 30_encoding.md R64 -/

/-- One word for every constructor, in the numbering of spec/opcode_table.json: the first byte in the lowest bits. -/
theorem test_decode_words :
    decodeTableWord 24 0b11111111_00000011_10000010 = some (.ldi 3 255) ∧
    decodeTableWord 16 0b00000101_01000111 = some (.prn 5) ∧
    decodeTableWord 8 0b00000001 = some .hlt ∧
    decodeTableWord 24 0b00000001_00000110_10100010 = some (.mul 6 1) ∧
    decodeTableWord 24 0b00000111_00000010_10100000 = some (.add 2 7) ∧
    decodeTableWord 16 0b00000100_01000101 = some (.push 4) ∧
    decodeTableWord 16 0b00000001_01000110 = some (.pop 1) ∧
    decodeTableWord 16 0b00000011_01010000 = some (.call 3) ∧
    decodeTableWord 8 0b00010001 = some .ret ∧
    decodeTableWord 16 0b00000110_01010100 = some (.jmp 6) ∧
    decodeTableWord 24 0b00000010_00000001_10100111 = some (.cmp 1 2) ∧
    decodeTableWord 16 0b00000101_01010101 = some (.jeq 5) ∧
    decodeTableWord 16 0b00000100_01010110 = some (.jne 4) := by decide

/-- R65 and R67: 0x00, 0xA1 (which is not SUB), 0xC0 and 0xA8 are no opcodes, whatever follows. -/
theorem test_decode_refuses :
    decodeTableWord 24 0 = none ∧ decodeTableWord 24 0x0100A1 = none ∧ decodeTableWord 8 0xC0 = none ∧
    decodeTableWord 24 0x0100A8 = none := by decide

/-- R68: opcode byte 0x82 with no byte after it, or one, is not an LDI; the lower missing byte is the one named. -/
theorem test_decode_short :
    decode 0x82 [] = .error (.missingOperand 1) ∧ decode 0x82 [0] = .error (.missingOperand 2) :=
  ⟨rfl, rfl⟩

/-- The next step runs the word that `withFetchWord` placed, from reset and from a stopped core. -/
theorem test_withFetchWord :
    nextIs (step (State.reset.withFetchWord 24 0x080082)) (((State.reset.withFetchWord 24 0x080082).setReg 0 8).jump 3) = true ∧
    nextIs (step (({ State.reset with status := .halted } : State).withFetchWord 8 0x01))
      { State.reset.withFetchWord 8 0x01 with status := .halted } = true := by decide

/-! ### LDI -/

/-- T1, T2, T3. -/
theorem test_ldi :
    nextIs (step (prog 0 [0x82, 0x00, 0x08])) (((prog 0 [0x82, 0x00, 0x08]).setReg 0 8).jump 3) = true ∧
    nextIs (step (prog 10 [0x82, 0x03, 0xFF])) (((prog 10 [0x82, 0x03, 0xFF]).setReg 3 255).jump 13) = true ∧
    nextIs (step (prog 0 [0x82, 0x07, 0x10])) (((prog 0 [0x82, 0x07, 0x10]).setReg 7 16).jump 3) = true := by decide

/-- T4, T5, T6. -/
theorem test_ldi_faults :
    faults (prog 0 [0x82, 0x08, 0x01]) 0 0x82 (.badRegisterIndex .byte1 8) = true ∧
    faults (prog 253 [0x82, 0x00, 0x01]) 253 0x82 (.addressOutOfRange .nextPc 256) = true ∧
    faults (prog 254 [0x82, 0x00]) 254 0x82 (.addressOutOfRange .operandFetch 256) = true := by decide

/-! ### PRN -/

/-- T7, T8. -/
theorem test_prn :
    nextIs (step (progR 3 [0x47, 0x00] [(0, 8)])) { progR 3 [0x47, 0x00] [(0, 8)] with out := [8], pc := 5 } = true ∧
    nextIs (step (progR 0 [0x47, 0x02] [(2, 255)])) { progR 0 [0x47, 0x02] [(2, 255)] with out := [255], pc := 2 } = true := by decide

/-- T9, T10. -/
theorem test_prn_faults :
    faults (progR 254 [0x47, 0x00] [(0, 9)]) 254 0x47 (.addressOutOfRange .nextPc 256) = true ∧
    faults (prog 255 [0x47]) 255 0x47 (.addressOutOfRange .operandFetch 256) = true := by decide

/-- R104: the console text of 255, 0 and 10, and R69: the assembly text of LDI, MUL and HLT. -/
theorem test_console_and_assembly :
    consoleText [255, 0, 10] = ['2', '5', '5', '\n', '0', '\n', '1', '0', '\n'] ∧
    asm (.ldi 0 8) = ['L', 'D', 'I', ' ', 'R', '0', ',', '8'] ∧ asm (.mul 0 1) = ['M', 'U', 'L', ' ', 'R', '0', ',', 'R', '1'] ∧
    asm .hlt = ['H', 'L', 'T'] := by decide

/-! ### HLT -/

/-- T11, T12, and that the halted core does nothing more. -/
theorem test_hlt :
    nextIs (step (prog 5 [0x01])) { prog 5 [0x01] with status := .halted } = true ∧
    nextIs (step (prog 255 [0x01])) { prog 255 [0x01] with status := .halted } = true ∧
    nextIs (step { prog 5 [0x01] with status := .halted }) { prog 5 [0x01] with status := .halted } = true ∧
    Status.exitStatus .halted = some 0 := by decide

/-! ### ADD and MUL -/

/-- T13 to T16 and T19. -/
theorem test_add :
    nextIs (step (progR 0 [0xA0, 0, 1] [(0, 3), (1, 4)])) ((progR 0 [0xA0, 0, 1] [(0, 7), (1, 4)]).jump 3) = true ∧
    nextIs (step (progR 0 [0xA0, 0, 1] [(0, 200), (1, 100)])) ((progR 0 [0xA0, 0, 1] [(0, 44), (1, 100)]).jump 3) = true ∧
    nextIs (step (progR 0 [0xA0, 0, 1] [(0, 255), (1, 1)])) ((progR 0 [0xA0, 0, 1] [(0, 0), (1, 1)]).jump 3) = true ∧
    nextIs (step (progR 0 [0xA0, 2, 2] [(2, 255)])) ((progR 0 [0xA0, 2, 2] [(2, 254)]).jump 3) = true ∧
    nextIs (step (progR 0 [0xA0, 7, 0] [(0, 12)])) ((progR 0 [0xA0, 7, 0] [(0, 12), (7, 0)]).jump 3) = true := by decide

/-- T17, T18. -/
theorem test_add_faults :
    faults (progR 0 [0xA0, 0, 9] [(0, 1)]) 0 0xA0 (.badRegisterIndex .byte2 9) = true ∧
    faults (prog 0 [0xA0, 8, 9]) 0 0xA0 (.badRegisterIndex .byte1 8) = true := by decide

/-- T20 to T24. -/
theorem test_mul :
    nextIs (step (progR 0 [0xA2, 0, 1] [(0, 8), (1, 9)])) ((progR 0 [0xA2, 0, 1] [(0, 72), (1, 9)]).jump 3) = true ∧
    nextIs (step (progR 0 [0xA2, 0, 0] [(0, 16)])) ((progR 0 [0xA2, 0, 0] [(0, 0)]).jump 3) = true ∧
    nextIs (step (progR 0 [0xA2, 0, 1] [(0, 255), (1, 255)])) ((progR 0 [0xA2, 0, 1] [(0, 1), (1, 255)]).jump 3) = true ∧
    nextIs (step (progR 0 [0xA2, 0, 1] [(0, 15), (1, 17)])) ((progR 0 [0xA2, 0, 1] [(0, 255), (1, 17)]).jump 3) = true ∧
    nextIs (step (progR 0 [0xA2, 0, 1] [(0, 77), (1, 0)])) ((progR 0 [0xA2, 0, 1] [(0, 0), (1, 0)]).jump 3) = true := by decide

/-! ### CMP -/

/-- T25 to T29. -/
theorem test_cmp :
    nextIs (step (st 0 [0xA7, 1, 2] [(1, 3), (2, 4)] [] .clear)) ((st 0 [0xA7, 1, 2] [(1, 3), (2, 4)] [] .lessThan).jump 3) = true ∧
    nextIs (step (st 0 [0xA7, 1, 2] [(1, 4), (2, 4)] [] .lessThan)) ((st 0 [0xA7, 1, 2] [(1, 4), (2, 4)] [] .equal).jump 3) = true ∧
    nextIs (step (st 0 [0xA7, 1, 2] [(1, 128), (2, 127)] [] .clear))
      ((st 0 [0xA7, 1, 2] [(1, 128), (2, 127)] [] .greaterThan).jump 3) = true ∧
    nextIs (step (st 0 [0xA7, 3, 3] [(3, 9)] [] .greaterThan)) ((st 0 [0xA7, 3, 3] [(3, 9)] [] .equal).jump 3) = true ∧
    nextIs (step (st 0 [0xA7, 1, 2] [(1, 0), (2, 255)] [] .equal)) ((st 0 [0xA7, 1, 2] [(1, 0), (2, 255)] [] .lessThan).jump 3) = true := by
  decide

/-- T30. -/
theorem test_cmp_faults :
    faults (prog 253 [0xA7, 0, 0]) 253 0xA7 (.addressOutOfRange .nextPc 256) = true := by decide

/-! ### PUSH and POP -/

/-- T31, T32, T34; the last overwrites a program byte. -/
theorem test_push :
    nextIs (step (progR 0 [0x45, 0] [(0, 5)])) ((st 0 [0x45, 0] [(0, 5), (7, 0xF3)] [(0xF3, 5)] .clear).jump 2) = true ∧
    nextIs (step (prog 0 [0x45, 7])) ((st 0 [0x45, 7] [(7, 0xF3)] [(0xF3, 0xF3)] .clear).jump 2) = true ∧
    nextIs (step (st 16 [0x45, 0] [(0, 42), (7, 1)] [(0, 0x82)] .clear))
      ((st 16 [0x45, 0] [(0, 42), (7, 0)] [(0, 42)] .clear).jump 18) = true := by decide

/-- T33. -/
theorem test_push_faults :
    faults (progR 16 [0x45, 0] [(7, 0)]) 16 0x45 (.stackPointerOutOfRange 0 .decrement) = true := by decide

/-- T35, T36, T37. -/
theorem test_pop :
    nextIs (step (st 0 [0x46, 2] [(7, 0xF3)] [(0xF3, 5)] .clear))
      ((st 0 [0x46, 2] [(2, 5), (7, 0xF4)] [(0xF3, 5)] .clear).jump 2) = true ∧
    nextIs (step (prog 0 [0x46, 0])) ((progR 0 [0x46, 0] [(0, 0), (7, 0xF5)]).jump 2) = true ∧
    nextIs (step (st 0 [0x46, 7] [(7, 0xF3)] [(0xF3, 0x40)] .clear))
      ((st 0 [0x46, 7] [(7, 0x41)] [(0xF3, 0x40)] .clear).jump 2) = true := by decide

/-- T38, T39. -/
theorem test_pop_faults :
    faults (st 0 [0x46, 0] [(7, 255)] [(0xFF, 7)] .clear) 0 0x46 (.stackPointerOutOfRange 255 .increment) = true ∧
    faults (st 0 [0x46, 7] [(7, 0xF0)] [(0xF0, 255)] .clear) 0 0x46 (.stackPointerOutOfRange 255 .increment) = true := by decide

/-! ### CALL and RET -/

/-- T40, T41. -/
theorem test_call :
    nextIs (step (progR 8 [0x50, 1] [(1, 15), (7, 0xF3)]))
      ((st 8 [0x50, 1] [(1, 15), (7, 0xF2)] [(0xF2, 10)] .clear).jump 15) = true ∧
    nextIs (step (prog 8 [0x50, 7])) ((st 8 [0x50, 7] [(7, 0xF3)] [(0xF3, 10)] .clear).jump 0xF3) = true := by decide

/-- T42, T43, and both at once: the return address is checked before SP (R166). -/
theorem test_call_faults :
    faults (progR 254 [0x50, 1] [(1, 0)]) 254 0x50 (.addressOutOfRange .returnAddress 256) = true ∧
    faults (progR 8 [0x50, 1] [(1, 0), (7, 0)]) 8 0x50 (.stackPointerOutOfRange 0 .decrement) = true ∧
    faults (progR 254 [0x50, 1] [(7, 0)]) 254 0x50 (.addressOutOfRange .returnAddress 256) = true := by decide

/-- T44, T46. -/
theorem test_ret :
    nextIs (step (st 18 [0x11] [(7, 0xF2)] [(0xF2, 10)] .clear)) ((st 18 [0x11] [(7, 0xF3)] [(0xF2, 10)] .clear).jump 10) = true ∧
    nextIs (step (prog 18 [0x11])) ((progR 18 [0x11] [(7, 0xF5)]).jump 0) = true := by decide

/-- T45. -/
theorem test_ret_faults :
    faults (st 18 [0x11] [(7, 255)] [(0xFF, 3)] .clear) 18 0x11 (.stackPointerOutOfRange 255 .increment) = true := by decide

/-! ### JMP, JEQ and JNE -/

/-- T47, T48. -/
theorem test_jmp :
    nextIs (step (progR 32 [0x54, 6] [(6, 21)])) ((progR 32 [0x54, 6] [(6, 21)]).jump 21) = true ∧
    nextIs (step (progR 254 [0x54, 1] [(1, 7)])) ((progR 254 [0x54, 1] [(1, 7)]).jump 7) = true := by decide

/-- T49. -/
theorem test_jmp_faults : faults (prog 0 [0x54, 0xFF]) 0 0x54 (.badRegisterIndex .byte1 255) = true := by decide

/-- T50, T51, T52, T54. -/
theorem test_jeq :
    nextIs (step (st 24 [0x55, 5] [(5, 34)] [] .equal)) ((st 24 [0x55, 5] [(5, 34)] [] .equal).jump 34) = true ∧
    nextIs (step (st 24 [0x55, 5] [(5, 34)] [] .lessThan)) ((st 24 [0x55, 5] [(5, 34)] [] .lessThan).jump 26) = true ∧
    nextIs (step (st 24 [0x55, 5] [(5, 34)] [] .clear)) ((st 24 [0x55, 5] [(5, 34)] [] .clear).jump 26) = true ∧
    nextIs (step (st 254 [0x55, 5] [(5, 3)] [] .equal)) ((st 254 [0x55, 5] [(5, 3)] [] .equal).jump 3) = true := by decide

/-- T53, T55. -/
theorem test_jeq_faults :
    faults (st 254 [0x55, 5] [] [] .greaterThan) 254 0x55 (.addressOutOfRange .nextPc 256) = true ∧
    faults (st 0 [0x55, 8] [] [] .lessThan) 0 0x55 (.badRegisterIndex .byte1 8) = true := by decide

/-- T56 to T59. -/
theorem test_jne :
    nextIs (step (st 0 [0x56, 0] [(0, 0)] [] .clear)) (st 0 [0x56, 0] [(0, 0)] [] .clear) = true ∧
    nextIs (step (st 10 [0x56, 4] [(4, 99)] [] .equal)) ((st 10 [0x56, 4] [(4, 99)] [] .equal).jump 12) = true ∧
    nextIs (step (st 10 [0x56, 4] [(4, 99)] [] .greaterThan)) ((st 10 [0x56, 4] [(4, 99)] [] .greaterThan).jump 99) = true ∧
    nextIs (step (st 10 [0x56, 4] [(4, 99)] [] .lessThan)) ((st 10 [0x56, 4] [(4, 99)] [] .lessThan).jump 99) = true := by decide

/-! ### Bytes that are no instruction, and the launch -/

/-- T60, T61, T62; and a byte of an LDI that lies past the end is no wrap to address 0 (R81). -/
theorem test_illegal_opcodes :
    faults (prog 0 [0x00]) 0 0x00 .unrecognizedOpcode = true ∧
    faults (progR 0 [0xA1, 0, 1] [(0, 5), (1, 3)]) 0 0xA1 .unrecognizedOpcode = true ∧
    faults (prog 7 [0xC0]) 7 0xC0 .unrecognizedOpcode = true ∧
    faults (st 255 [0x82] [] [(0, 1), (1, 1)] .clear) 255 0x82 (.addressOutOfRange .operandFetch 256) = true := by decide

/-- R35, R181: byte a of the image is at address a; everything else is as after reset. -/
theorem test_launch :
    nextIs (launch [0x82, 0x00, 0x08]) { State.reset with mem := [(0, 0x82), (2, 0x08)] } = true := by decide

/-! ### Witnesses: the hypotheses of each obligation can be met, clause by clause, at the ends of the ranges -/

theorem witness_LdiLoadsImmediate : (prog 252 []).pc.toNat + 3 ≤ 255 ∧ (prog 0 []).pc.toNat + 3 ≤ 255 := by decide
theorem witness_PrnEmitsRegister : (prog 253 []).pc.toNat + 2 ≤ 255 := by decide
theorem witness_AddWrapsIntoFirstRegister : (prog 252 []).pc.toNat + 3 ≤ 255 := by decide
theorem witness_MulWrapsIntoFirstRegister : (prog 252 []).pc.toNat + 3 ≤ 255 := by decide

/-- CMP, one state for each of the three flags. -/
theorem witness_CmpSetsFlagOnly :
    (prog 252 []).pc.toNat + 3 ≤ 255 ∧ ((prog 252 []).reg 0).toNat = ((prog 252 []).reg 1).toNat ∧
    ((progR 252 [] [(1, 255)]).reg 0).toNat < ((progR 252 [] [(1, 255)]).reg 1).toNat ∧
    ((progR 252 [] [(0, 255)]).reg 1).toNat < ((progR 252 [] [(0, 255)]).reg 0).toNat := by decide

/-- PUSH at the lowest SP and the highest PC that do not fault, in a state with canonical memory. -/
theorem witness_PushStoresAtNewSp :
    1 ≤ (progR 253 [] [(7, 1)]).sp.toNat ∧ (progR 253 [] [(7, 1)]).pc.toNat + 2 ≤ 255 ∧ (progR 253 [] [(7, 1)]).mem.wf := by decide

/-- POP into another register, with SP 254, and POP R7 of the byte 254. -/
theorem witness_PopLoadsFromSp :
    (if (0 : Fin 8) = spIndex then (progR 253 [] [(7, 254)]).memRead (progR 253 [] [(7, 254)]).sp
      else (progR 253 [] [(7, 254)]).sp).toNat + 1 ≤ 255 ∧
    (if (7 : Fin 8) = spIndex then (st 253 [] [(7, 255)] [(255, 254)] .clear).memRead 255
      else (st 253 [] [(7, 255)] [(255, 254)] .clear).sp).toNat + 1 ≤ 255 ∧
    (st 253 [] [(7, 255)] [(255, 254)] .clear).sp = 255 ∧ (prog 253 []).pc.toNat + 2 ≤ 255 := by decide

theorem witness_CallPushesReturnAddress :
    (progR 253 [] [(7, 1)]).pc.toNat + 2 ≤ 255 ∧ 1 ≤ (progR 253 [] [(7, 1)]).sp.toNat ∧ (progR 253 [] [(7, 1)]).mem.wf := by decide
theorem witness_RetPopsPc : (progR 255 [] [(7, 254)]).sp.toNat + 1 ≤ 255 := by decide

/-- JEQ: taken at PC 255, where nothing is asked of the PC, and not taken at PC 253. -/
theorem witness_JeqJumpsOnEqual :
    ((st 255 [] [] [] .equal).fl ≠ .equal → (st 255 [] [] [] .equal).pc.toNat + 2 ≤ 255) ∧ (st 255 [] [] [] .equal).fl = .equal ∧
    ((st 253 [] [] [] .clear).fl ≠ .equal → (st 253 [] [] [] .clear).pc.toNat + 2 ≤ 255) ∧
    (st 253 [] [] [] .clear).fl ≠ .equal := by decide

/-- JNE: not taken at PC 253 and taken at PC 255. -/
theorem witness_JneJumpsUnlessEqual :
    ((st 253 [] [] [] .equal).fl = .equal → (st 253 [] [] [] .equal).pc.toNat + 2 ≤ 255) ∧ (st 253 [] [] [] .equal).fl = .equal ∧
    ((st 255 [] [] [] .clear).fl = .equal → (st 255 [] [] [] .clear).pc.toNat + 2 ≤ 255) ∧
    (st 255 [] [] [] .clear).fl ≠ .equal := by decide

/-- The two hypotheses that every statement of the form …StepEveryCase begins with. -/
abbrev Opens (s : State) (op : Byte) : Prop := s.status = .running ∧ s.memRead s.pc = op

/-- The clauses that the three-byte instructions share: no operand byte, a bad byte 1, no next PC, and completion. -/
abbrev ThreeByteClauses (op b1 : Byte) : Prop :=
  (Opens (prog 254 [op, 0]) op ∧ 254 ≤ (prog 254 [op, 0]).pc.toNat) ∧
  (Opens (prog 255 [op]) op ∧ 254 ≤ (prog 255 [op]).pc.toNat) ∧
  (Opens (prog 253 [op, 8, 0]) op ∧ (prog 253 [op, 8, 0]).pc.toNat ≤ 253 ∧ 8 ≤ ((prog 253 [op, 8, 0]).operand 1).toNat) ∧
  (Opens (prog 253 [op, 7, 7]) op ∧ (prog 253 [op, 7, 7]).pc.toNat = 253 ∧ ((prog 253 [op, 7, 7]).operand 1).toNat ≤ 7 ∧
    ((prog 253 [op, 7, 7]).operand 2).toNat ≤ 7) ∧
  (Opens (prog 252 [op, b1, 0]) op ∧ (prog 252 [op, b1, 0]).pc.toNat ≤ 252 ∧ (prog 252 [op, b1, 0]).operand 1 = regByte 7 ∧
    (prog 252 [op, b1, 0]).operand 2 = regByte 0)

/-- The clause of a bad byte 2 behind a good byte 1. -/
abbrev BadByte2Clause (op : Byte) : Prop :=
  Opens (prog 253 [op, 7, 8]) op ∧ (prog 253 [op, 7, 8]).pc.toNat ≤ 253 ∧ ((prog 253 [op, 7, 8]).operand 1).toNat ≤ 7 ∧
  8 ≤ ((prog 253 [op, 7, 8]).operand 2).toNat

/-- The clauses that the two-byte instructions with a register byte share: no operand byte, and a bad byte. -/
abbrev TwoByteClauses (op : Byte) : Prop :=
  (Opens (prog 255 [op]) op ∧ (prog 255 [op]).pc.toNat = 255) ∧
  (Opens (prog 254 [op, 8]) op ∧ (prog 254 [op, 8]).pc.toNat ≤ 254 ∧ 8 ≤ ((prog 254 [op, 8]).operand 1).toNat)

theorem witness_LdiStepEveryCase : ThreeByteClauses 0x82 7 := by decide

theorem witness_PrnStepEveryCase :
    TwoByteClauses 0x47 ∧
    (Opens (prog 254 [0x47, 7]) 0x47 ∧ (prog 254 [0x47, 7]).pc.toNat = 254 ∧ ((prog 254 [0x47, 7]).operand 1).toNat ≤ 7) ∧
    (Opens (prog 253 [0x47, 7]) 0x47 ∧ (prog 253 [0x47, 7]).pc.toNat ≤ 253 ∧ (prog 253 [0x47, 7]).operand 1 = regByte 7) := by decide

theorem witness_HltStepEveryCase :
    Opens (prog 255 [0x01]) 0x01 ∧ ∃ t, Sys2Proof.core.run 1 { prog 255 [0x01] with status := .halted } = .next t := ⟨by decide, _, rfl⟩

theorem witness_AddStepEveryCase : ThreeByteClauses 0xA0 7 ∧ BadByte2Clause 0xA0 := by decide
theorem witness_MulStepEveryCase : ThreeByteClauses 0xA2 7 ∧ BadByte2Clause 0xA2 := by decide

/-- CMP also for each of the three outcomes, by the values in R7 and R0. -/
theorem witness_CmpStepEveryCase :
    ThreeByteClauses 0xA7 7 ∧ BadByte2Clause 0xA7 ∧
    ((progR 252 [0xA7, 7, 0] [(0, 0xF4)]).reg 7).toNat = ((progR 252 [0xA7, 7, 0] [(0, 0xF4)]).reg 0).toNat ∧
    ((progR 252 [0xA7, 7, 0] [(0, 0xF5)]).reg 7).toNat < ((progR 252 [0xA7, 7, 0] [(0, 0xF5)]).reg 0).toNat ∧
    ((progR 252 [0xA7, 7, 0] [(0, 0xF3)]).reg 0).toNat < ((progR 252 [0xA7, 7, 0] [(0, 0xF3)]).reg 7).toNat ∧
    (progR 252 [0xA7, 7, 0] [(0, 0xF3)]).operand 1 = regByte 7 ∧ (progR 252 [0xA7, 7, 0] [(0, 0xF3)]).operand 2 = regByte 0 := by decide

theorem witness_PushStepEveryCase :
    TwoByteClauses 0x45 ∧
    (Opens (progR 254 [0x45, 7] [(7, 0)]) 0x45 ∧ (progR 254 [0x45, 7] [(7, 0)]).pc.toNat ≤ 254 ∧
      ((progR 254 [0x45, 7] [(7, 0)]).operand 1).toNat ≤ 7 ∧ (progR 254 [0x45, 7] [(7, 0)]).sp = 0) ∧
    (Opens (progR 254 [0x45, 7] [(7, 1)]) 0x45 ∧ (progR 254 [0x45, 7] [(7, 1)]).pc.toNat = 254 ∧
      ((progR 254 [0x45, 7] [(7, 1)]).operand 1).toNat ≤ 7 ∧ (progR 254 [0x45, 7] [(7, 1)]).sp ≠ 0) ∧
    (Opens (progR 253 [0x45, 7] [(7, 1)]) 0x45 ∧ (progR 253 [0x45, 7] [(7, 1)]).pc.toNat ≤ 253 ∧
      (progR 253 [0x45, 7] [(7, 1)]).sp ≠ 0 ∧ (progR 253 [0x45, 7] [(7, 1)]).operand 1 = regByte 7) := by decide

/-- POP: SP 255 for another register and a popped byte 255 for R7; then both completions. -/
theorem witness_PopStepEveryCase :
    TwoByteClauses 0x46 ∧
    (Opens (progR 254 [0x46, 0] [(7, 255)]) 0x46 ∧ (progR 254 [0x46, 0] [(7, 255)]).operand 1 = regByte 0 ∧
      (progR 254 [0x46, 0] [(7, 255)]).sp = 255) ∧
    (Opens (st 254 [0x46, 7] [] [(0xF4, 255)] .clear) 0x46 ∧ (st 254 [0x46, 7] [] [(0xF4, 255)] .clear).operand 1 = regByte 7 ∧
      (st 254 [0x46, 7] [] [(0xF4, 255)] .clear).memRead (st 254 [0x46, 7] [] [(0xF4, 255)] .clear).sp = 255) ∧
    (Opens (prog 254 [0x46, 0]) 0x46 ∧ (prog 254 [0x46, 0]).operand 1 = regByte 0 ∧ (prog 254 [0x46, 0]).sp ≠ 255) ∧
    (Opens (progR 253 [0x46, 0] [(7, 254)]) 0x46 ∧ (progR 253 [0x46, 0] [(7, 254)]).pc.toNat ≤ 253 ∧
      (progR 253 [0x46, 0] [(7, 254)]).operand 1 = regByte 0 ∧ (progR 253 [0x46, 0] [(7, 254)]).sp ≠ 255) ∧
    (Opens (prog 253 [0x46, 7]) 0x46 ∧ (prog 253 [0x46, 7]).operand 1 = 7 ∧ (prog 253 [0x46, 7]).memRead (prog 253 [0x46, 7]).sp ≠ 255) := by
  decide

theorem witness_CallStepEveryCase :
    TwoByteClauses 0x50 ∧
    (Opens (prog 254 [0x50, 7]) 0x50 ∧ (prog 254 [0x50, 7]).pc.toNat = 254 ∧ ((prog 254 [0x50, 7]).operand 1).toNat ≤ 7) ∧
    (Opens (progR 253 [0x50, 7] [(7, 0)]) 0x50 ∧ (progR 253 [0x50, 7] [(7, 0)]).pc.toNat ≤ 253 ∧
      ((progR 253 [0x50, 7] [(7, 0)]).operand 1).toNat ≤ 7 ∧ (progR 253 [0x50, 7] [(7, 0)]).sp = 0) ∧
    (Opens (progR 253 [0x50, 7] [(7, 1)]) 0x50 ∧ (progR 253 [0x50, 7] [(7, 1)]).pc.toNat ≤ 253 ∧
      (progR 253 [0x50, 7] [(7, 1)]).sp ≠ 0 ∧ (progR 253 [0x50, 7] [(7, 1)]).operand 1 = regByte 7) := by decide

theorem witness_RetStepEveryCase :
    (Opens (progR 255 [0x11] [(7, 255)]) 0x11 ∧ (progR 255 [0x11] [(7, 255)]).sp = 255) ∧
    (Opens (progR 255 [0x11] [(7, 254)]) 0x11 ∧ (progR 255 [0x11] [(7, 254)]).sp ≠ 255) := by decide

theorem witness_JmpStepEveryCase :
    TwoByteClauses 0x54 ∧
    (Opens (prog 254 [0x54, 7]) 0x54 ∧ (prog 254 [0x54, 7]).pc.toNat ≤ 254 ∧ (prog 254 [0x54, 7]).operand 1 = regByte 7) := by decide

/-- The clauses of a conditional jump: taken at PC 254, not taken at PC 254, and not taken at PC 253. -/
abbrev BranchClauses (op : Byte) (taken untaken : Flag) : Prop :=
  (Opens (st 254 [op, 7] [] [] taken) op ∧ (st 254 [op, 7] [] [] taken).pc.toNat ≤ 254 ∧
    (st 254 [op, 7] [] [] taken).operand 1 = regByte 7 ∧ (st 254 [op, 7] [] [] taken).fl = taken) ∧
  (Opens (st 254 [op, 7] [] [] untaken) op ∧ (st 254 [op, 7] [] [] untaken).pc.toNat = 254 ∧
    ((st 254 [op, 7] [] [] untaken).operand 1).toNat ≤ 7 ∧ (st 254 [op, 7] [] [] untaken).fl = untaken) ∧
  (Opens (st 253 [op, 7] [] [] untaken) op ∧ (st 253 [op, 7] [] [] untaken).pc.toNat ≤ 253 ∧
    ((st 253 [op, 7] [] [] untaken).operand 1).toNat ≤ 7 ∧ (st 253 [op, 7] [] [] untaken).fl = untaken)

theorem witness_JeqStepEveryCase : TwoByteClauses 0x55 ∧ BranchClauses 0x55 .equal .clear := by decide
theorem witness_JneStepEveryCase : TwoByteClauses 0x56 ∧ BranchClauses 0x56 .clear .equal := by decide

theorem witness_OpcodeTableDecodes :
    (0x00 : Byte) ∉ ([0x82, 0x47, 0x01, 0xA2, 0xA0, 0x45, 0x46, 0x50, 0x11, 0x54, 0xA7, 0x55, 0x56] : List Byte) := by decide

theorem witness_EncodingsAreUnambiguous :
    encode (.ldi 0 1) ++ [2] = encode (.ldi 0 1) ++ [2] ∧ (Instr.ldi 0 1).opcode = (Instr.ldi 2 3).opcode := by decide

theorem witness_StepRunsDecodedInstruction :
    (prog 0 [0x82, 0, 8]).status = .running ∧
    decode (prog 0 [0x82, 0, 8]).fetchOpcode (prog 0 [0x82, 0, 8]).fetchOperands = .ok (.ldi 0 8) := ⟨rfl, rfl⟩

/-- The last PC at which a three-byte instruction has its operand bytes, and the first at which it has not. -/
theorem witness_OperandBytesAreFetchedOrFault :
    (Opens (prog 253 [0x82, 0, 8]) 0x82 ∧ (Instr.ldi 0 8).opcode = 0x82 ∧
      (prog 253 [0x82, 0, 8]).pc.toNat + ((Instr.ldi 0 8).length - 1) ≤ 255 ∧
      [(prog 253 [0x82, 0, 8]).operand 1, (prog 253 [0x82, 0, 8]).operand 2] = (Instr.ldi 0 8).operandBytes) ∧
    (Opens (prog 254 [0x82, 0]) 0x82 ∧ 255 < (prog 254 [0x82, 0]).pc.toNat + ((Instr.ldi 0 8).length - 1)) := by decide

theorem witness_IllegalOpcodeFaults :
    (prog 0 []).status = .running ∧
    (prog 0 []).memRead (prog 0 []).pc ∉ ([0x82, 0x47, 0x01, 0xA2, 0xA0, 0x45, 0x46, 0x50, 0x11, 0x54, 0xA7, 0x55, 0x56] : List Byte) := by
  decide

theorem witness_FirstBadRegisterByteIsReported :
    ((Instr.add 8 9).regBytes.find? fun pr => decide (7 < pr.2.toNat)) = some (.byte1, 8) ∧
    ((Instr.add 7 255).regBytes.find? fun pr => decide (7 < pr.2.toNat)) = some (.byte2, 255) := by decide

/-- A state in which a check fails, one in which none does, and one at a HLT. -/
theorem witness_FirstFailedCheckIsReported :
    ((prog 253 [0x82, 0, 1]).status = .running ∧
      firstFailed (prog 253 [0x82, 0, 1]).checks = some (.addressOutOfRange .nextPc 256)) ∧
    ((prog 252 [0x82, 0, 1]).status = .running ∧ firstFailed (prog 252 [0x82, 0, 1]).checks = none) ∧
    ((prog 255 [0x01]).status = .running ∧ firstFailed (prog 255 [0x01]).checks = none) := by decide

theorem witness_FaultsArePrecise :
    ∃ t r, (prog 0 []).status = .running ∧ step (prog 0 []) = .next t ∧ t.status = .faulted r := ⟨_, _, rfl, rfl, rfl⟩

theorem witness_AluFaultIsUnreachable :
    (∃ t r, (prog 0 [0xA0, 8, 0]).status = .running ∧ exec (.add 8 0) (prog 0 [0xA0, 8, 0]) = .next t ∧ t.status = .faulted r) ∧
    (∃ t r, (prog 0 [0xA0, 8, 0]).status = .running ∧ step (prog 0 [0xA0, 8, 0]) = .next t ∧ t.status = .faulted r) :=
  ⟨⟨_, _, rfl, rfl, rfl⟩, ⟨_, _, rfl, rfl, rfl⟩⟩

theorem witness_StoppedCoreStaysAsItIs :
    (({ State.reset with status := .halted } : State).status ≠ .running ∧
      ∃ t, Sys2Proof.core.run 1 { State.reset with status := .halted } = .next t) ∧
    (∃ t, (prog 0 [0x01]).status = .running ∧ step (prog 0 [0x01]) = .next t ∧ t.status = .halted) ∧
    (∃ t, (prog 0 [0x82]).status = .running ∧ step (prog 0 [0x82]) = .next t ∧ t.status = .running) ∧
    (∃ t, (prog 255 [0x82]).status = .running ∧ step (prog 255 [0x82]) = .next t ∧
      firstFailed (prog 255 [0x82]).checks = some (.addressOutOfRange .operandFetch 256)) :=
  ⟨⟨by decide, _, rfl⟩, ⟨_, rfl, rfl, rfl⟩, ⟨_, rfl, rfl, rfl⟩, ⟨_, rfl, rfl, rfl⟩⟩

theorem witness_NextPcIsSetInOneOfThreeWays :
    ∃ t, (prog 252 [0x82]).status = .running ∧ exec (.ldi 0 0) (prog 252 [0x82]) = .next t ∧ t.Safe :=
  ⟨_, rfl, rfl, fun _ h => by cases h⟩

theorem witness_FlIsWrittenByCmpAndReadByJumps :
    (∃ t, exec (.cmp 0 0) (prog 0 []) = .next t ∧ t.fl ≠ (prog 0 []).fl) ∧ readsFl (.cmp 0 0) = false := ⟨⟨_, rfl, by decide⟩, rfl⟩

theorem witness_FlNeverReturnsToClear :
    (∃ t, (prog 0 []).status = .running ∧ exec (.cmp 0 0) (prog 0 []) = .next t ∧ t.Safe) ∧
    (∃ t, (st 0 [0x82] [] [] .equal).fl ≠ .clear ∧ step (st 0 [0x82] [] [] .equal) = .next t) :=
  ⟨⟨_, rfl, rfl, fun _ h => by cases h⟩, ⟨_, by decide, rfl⟩⟩

/-- A PUSH and a CALL that each change a cell, with canonical memory, and another canonical memory. -/
theorem witness_MemoryIsWrittenByPushAndCall :
    (∃ t, exec (.push 7) (prog 0 []) = .next t ∧ t.memRead 0xF3 ≠ (prog 0 []).memRead 0xF3) ∧
    (∃ t, exec (.call 7) (prog 0 []) = .next t ∧ t.memRead 0xF3 ≠ (prog 0 []).memRead 0xF3) ∧ (prog 0 []).mem.wf ∧
    Memory.wf [(0xF3, 1), (0xF4, 2)] ∧ readsMem (.push 7) = false :=
  ⟨⟨_, rfl, by decide⟩, ⟨_, rfl, by decide⟩, by decide, by decide, rfl⟩

/-- A PRN that completes, and one that faults. -/
theorem witness_OutputGrowsOnlyByPrn :
    (∃ t, step (prog 253 [0x47, 7]) = .next t ∧ (prog 253 [0x47, 7]).status = .running ∧
      (prog 253 [0x47, 7]).memRead (prog 253 [0x47, 7]).pc = 0x47 ∧ t.status = .running) ∧
    (∃ t, step (prog 254 [0x47, 7]) = .next t ∧ t.status ≠ .running) := ⟨⟨_, rfl, by decide⟩, ⟨_, rfl, by decide⟩⟩

theorem witness_RegistersReadAndWrittenAsListed :
    (∃ t, exec (.ldi 0 1) (prog 0 []) = .next t ∧ t.reg 0 ≠ (prog 0 []).reg 0) ∧ ¬ readsReg (prog 0 []) 0 (.ldi 0 1) :=
  ⟨⟨_, rfl, by decide⟩, id⟩

theorem witness_ReadReturnsLastWrite : (prog 253 [0x82, 7, 7]).mem.wf ∧ (prog 253 [0x82, 7, 7]).pc.toNat + 2 ≤ 255 := by decide

/-- A PUSH R7 that jumps on to the byte it stored (as opcode and as operand), and a CALL R7 that does. -/
theorem witness_FetchSeesThePushedByte :
    (∃ t, (progR 0 [] [(7, 3)]).mem.wf ∧ (progR 0 [] [(7, 3)]).status = .running ∧
      exec (.push (regByte 7)) (progR 0 [] [(7, 3)]) = .next t ∧ t.status = .running ∧ t.pc = t.sp ∧
      t.pc.toNat + 0 = t.sp.toNat) ∧
    (∃ t, (progR 0 [] [(7, 5)]).mem.wf ∧ exec (.push (regByte 7)) (progR 0 [] [(7, 5)]) = .next t ∧ t.status = .running ∧
      t.pc.toNat + 2 = t.sp.toNat) ∧
    (∃ t, (prog 253 []).mem.wf ∧ exec (.call (regByte 7)) (prog 253 []) = .next t ∧ t.status = .running ∧ t.pc = t.sp ∧
      t.pc.toNat + 0 = t.sp.toNat) ∧
    (∃ t, (progR 0 [] [(0, 0xF1)]).mem.wf ∧ exec (.call (regByte 0)) (progR 0 [] [(0, 0xF1)]) = .next t ∧ t.status = .running ∧
      t.pc.toNat + 2 = t.sp.toNat) :=
  ⟨⟨_, by decide, rfl, rfl, by decide⟩, ⟨_, by decide, rfl, by decide⟩, ⟨_, by decide, rfl, by decide⟩, ⟨_, by decide, rfl, by decide⟩⟩

/-- A state with a program that meets the invariant and whose step stores a byte. -/
theorem witness_StepKeepsInvariant :
    (prog 0 [0x45, 7]).Inv ∧ ∃ t, step (prog 0 [0x45, 7]) = .next t :=
  ⟨⟨by decide, (fun h => by cases h), (fun _ h => by cases h)⟩, _, rfl⟩

theorem witness_ResetAndLaunchMeetInvariant : ∃ s, launch [0x82, 0, 8] = .next s := ⟨_, rfl⟩

/-- Images of 256 and of 257 bytes. -/
theorem witness_LaunchLoadsTheImage :
    (List.replicate 256 (1 : Byte)).length ≤ 256 ∧ 256 < (List.replicate 257 (1 : Byte)).length := by
  rw [List.length_replicate, List.length_replicate]; decide

/-- PUSH R7 then POP R7 with SP 255, the highest it can be. -/
theorem witness_PushThenPopPutsBack :
    ∃ t u, (progR 0 [] [(7, 255)]).mem.wf ∧ (progR 0 [] [(7, 255)]).status = .running ∧
      exec (.push (regByte 7)) (progR 0 [] [(7, 255)]) = .next t ∧ t.status = .running ∧
      exec (.pop (regByte 7)) t = .next u ∧ u.status = .running := ⟨_, _, by decide, rfl, rfl, rfl, rfl, rfl⟩

/-- The RET runs in a state that differs from the one CALL left, in R0 and the PC. -/
theorem witness_CallThenRetReturns :
    ∃ t u, (prog 253 []).mem.wf ∧ (prog 253 []).status = .running ∧ exec (.call (regByte 1)) (prog 253 []) = .next t ∧
      t.status = .running ∧ u = (t.setReg 0 9).jump 77 ∧ u.status = .running ∧ u.sp = t.sp ∧
      u.memRead u.sp = t.memRead t.sp := ⟨_, _, by decide, rfl, rfl, rfl, rfl, rfl, rfl, rfl⟩

theorem witness_RepeatedAddIsMul :
    (0 : Fin 8) ≠ 1 ∧ (progR 252 [] [(1, 9), (2, 8)]).reg 0 = 0 ∧ (progR 252 [] [(1, 9), (2, 8)]).pc.toNat + 3 ≤ 255 := by decide

/-- Two states that differ in LESS_THAN against GREATER_THAN only, two that both hold EQUAL, and the bound of the first
part at its end. -/
theorem witness_NoProgramTellsLessFromGreater :
    (st 0 [0x55, 0] [] [] .lessThan).FlAlike (st 0 [0x55, 0] [] [] .greaterThan) ∧
    (st 0 [0x55, 0] [] [] .equal).FlAlike (st 0 [0x55, 0] [] [] .equal) ∧ (st 253 [] [] [] .equal).pc.toNat + 2 ≤ 255 :=
  ⟨⟨rfl, by decide⟩, ⟨rfl, by decide⟩, by decide⟩

theorem witness_JumpToItselfRunsForEver :
    (Opens (progR 254 [0x54, 1] [(1, 254)]) 0x54) ∧ (progR 254 [0x54, 1] [(1, 254)]).pc.toNat ≤ 254 ∧
    (progR 254 [0x54, 1] [(1, 254)]).operand 1 = regByte 1 ∧ (progR 254 [0x54, 1] [(1, 254)]).reg 1 = (progR 254 [0x54, 1] [(1, 254)]).pc := by
  decide

end Sys2Proof.Tests
end

section
/-! SUPPORT. The checks of an instruction as it runs, in the order of 60_exceptions.md R166, and that `exec` and `step` fault
by the first of them that fails and complete when none does. Two states with the same checks fault alike, which is half of
every claim that an instruction does not depend on some part of the state. -/

namespace Sys2Proof.Machine

/-! ### The checks of `exec` -/

/-- The checks of an instruction after its fetch: those of `State.checks` without the operand fetches, for an instruction
that stands in memory or not. -/
def State.execChecks (s : State) : Instr → List Check
  | .ldi r _ => [regCheck .byte1 r, s.nextPcCheck 3]
  | .prn r => [regCheck .byte1 r, s.nextPcCheck 2]
  | .hlt => []
  | .mul a b | .add a b | .cmp a b => [regCheck .byte1 a, regCheck .byte2 b, s.nextPcCheck 3]
  | .push r => [regCheck .byte1 r, s.decCheck, s.nextPcCheck 2]
  | .pop r => [regCheck .byte1 r, incCheck (if r = 7 then s.memRead s.sp else s.sp), s.nextPcCheck 2]
  | .call r => [regCheck .byte1 r, s.returnCheck, s.decCheck]
  | .ret => [incCheck s.sp]
  | .jmp r => [regCheck .byte1 r]
  | .jeq r => regCheck .byte1 r :: if s.fl = .equal then [] else [s.nextPcCheck 2]
  | .jne r => regCheck .byte1 r :: if s.fl = .equal then [s.nextPcCheck 2] else []

/-- `exec i s` takes the fault of the first check of `cs` that fails, and completes when none does. -/
def ExecFollows (i : Instr) (s : State) (cs : List Check) : Prop :=
  (∃ f, firstFailed cs = some f ∧ exec i s = .next (s.faultedAt i f)) ∨
  (firstFailed cs = none ∧ ∃ t, Completed s i t)

theorem ExecFollows.nil {i : Instr} {s t : State} (c : Completed s i t) : ExecFollows i s [] := .inr ⟨rfl, t, c⟩

/-- A check in front: its own fault if it fails, and the later checks if it passes. -/
theorem ExecFollows.cons {i : Instr} {s : State} {cs : List Check} {p : Prop} [Decidable p] {f : Fault}
    (hfail : ¬ p → exec i s = .next (s.faultedAt i f)) (hpass : p → ExecFollows i s cs) :
    ExecFollows i s (⟨decide p, f⟩ :: cs) := by
  by_cases h : p
  · simpa [ExecFollows, firstFailed, h] using hpass h
  · exact .inl ⟨f, by simp [firstFailed, h], hfail h⟩

/-- The check of a register byte in front. -/
theorem ExecFollows.consReg {i : Instr} {s : State} {cs : List Check} {p : Position} {v : Byte}
    (hbad : 8 ≤ v.toNat → exec i s = .next (s.faultedAt i (.badRegisterIndex p v)))
    (hgood : ∀ k : Fin 8, v = regByte k → ExecFollows i s cs) : ExecFollows i s (regCheck p v :: cs) :=
  .cons (fun h => hbad (Nat.lt_of_not_le h)) fun h =>
    let ⟨k, e⟩ := exists_regByte_of_le v h
    hgood k e

/-- The check of the sequential next PC as the last one. -/
theorem ExecFollows.lastNextPc {i : Instr} {s : State} {len : Nat}
    (hfail : 255 < s.pc.toNat + len → exec i s = .next (s.faultedAt i (.addressOutOfRange .nextPc (s.pc.toNat + len))))
    (hpass : s.pc.toNat + len ≤ 255 → ∃ t, Completed s i t) : ExecFollows i s [s.nextPcCheck len] :=
  .cons (fun h => hfail (Nat.lt_of_not_le h)) fun h =>
    let ⟨_, c⟩ := hpass h
    .nil c

theorem one_le_toNat_of_ne_zero {v : Byte} (h : v ≠ 0) : 1 ≤ v.toNat :=
  Nat.pos_of_ne_zero fun e => h (BitVec.eq_of_toNat_eq e)

theorem toNat_succ_le_of_ne_max {v : Byte} (h : v ≠ 255) : v.toNat + 1 ≤ 255 := by
  have hlt := v.isLt
  have hne : v.toNat ≠ 255 := fun e => h (BitVec.eq_of_toNat_eq e)
  omega

/-- The checks that the three ALU instructions share. -/
theorem execFollows_alu {i : Instr} {s : State} {op : AluOp} {a b : RegByte}
    (hexec : exec i s = commit s i.opcode (aluHandler op a b s))
    (hpass : ∀ k l : Fin 8, a = regByte k → b = regByte l → s.pc.toNat + 3 ≤ 255 → ∃ t, Completed s i t) :
    ExecFollows i s [regCheck .byte1 a, regCheck .byte2 b, s.nextPcCheck 3] := by
  refine .consReg (fun h => ?_) fun k hk => .consReg (fun h => ?_) fun l hl => .lastNextPc (fun h => ?_) (hpass k l hk hl)
  · rw [hexec, aluHandler_bad1 s op a b h]; rfl
  · rw [hexec, hk, aluHandler_bad2 k s op b h]; rfl
  · rw [hexec, hk, hl, aluHandler_regByte, advance_error _ _ (by rw [State.aluWrite_pc]; exact h), State.aluWrite_pc]; rfl

/-- A handler follows its instruction's checks in order: the exact fault, where `exec_cases` says only that there is one. -/
theorem exec_follows_checks (i : Instr) (s : State) : ExecFollows i s (s.execChecks i) := by
  have bad := fun v (h : 8 ≤ BitVec.toNat v) => exec_bad1 s v h i
  cases i with
  | ldi r imm =>
    refine .consReg (fun h => bad r h (by simp)) fun k hk => .lastNextPc (fun h => ?_) fun h => ?_ <;> subst hk
    · rw [exec, execLdi_regByte, advance_error 3 (s.setReg k imm) h]; rfl
    · exact ⟨_, .ldi k imm h⟩
  | prn r =>
    refine .consReg (fun h => bad r h (by simp)) fun k hk => .lastNextPc (fun h => ?_) fun h => ?_ <;> subst hk
    · rw [exec, execPrn_regByte, advance_error 2 (s.emit _) h]; rfl
    · exact ⟨_, .prn k h⟩
  | hlt => exact .nil .hlt
  | mul a b => exact execFollows_alu (op := .mul) rfl fun k l hk hl h => by subst hk hl; exact ⟨_, .mul k l h⟩
  | add a b => exact execFollows_alu (op := .add) rfl fun k l hk hl h => by subst hk hl; exact ⟨_, .add k l h⟩
  | cmp a b => exact execFollows_alu (op := .cmp) rfl fun k l hk hl h => by subst hk hl; exact ⟨_, .cmp k l h⟩
  | push r =>
    refine .consReg (fun h => bad r h (by simp)) fun k hk => .cons (fun h => ?_) fun hsp =>
      .lastNextPc (fun h => ?_) fun h => ?_ <;> subst hk
    · rw [exec, execPush_regByte, decSp_error s (congrArg BitVec.toNat (Classical.not_not.1 h))]; rfl
    · rw [exec, execPush_regByte, decSp_ok s (one_le_toNat_of_ne_zero hsp), except_bind_ok,
        advance_error 2 ((s.setSp _).memWrite _ _) h]; rfl
    · exact ⟨_, .push k (one_le_toNat_of_ne_zero hsp) h⟩
  | pop r =>
    refine .consReg (fun h => bad r h (by simp)) fun k hk => ?_
    subst hk
    have hsp : (if regByte k = 7 then s.memRead s.sp else s.sp) = (s.setReg k (s.memRead s.sp)).sp := by
      rw [sp_after_pop_write, show (7 : RegByte) = regByte spIndex from rfl]
      simp only [regByte_inj]
    rw [hsp]
    refine .cons (fun h => ?_) fun hne => .lastNextPc (fun h => ?_) fun h => ?_
    · rw [exec, execPop_regByte, incSp_error _ (by rw [Classical.not_not.1 h]; decide)]; rfl
    · rw [exec, execPop_regByte, incSp_ok _ (toNat_succ_le_of_ne_max hne), except_bind_ok,
        advance_error 2 ((s.setReg k (s.memRead s.sp)).setSp _) h]; rfl
    · exact ⟨_, .pop k (sp_after_pop_write k s _ ▸ toNat_succ_le_of_ne_max hne) h⟩
  | call r =>
    refine .consReg (fun h => bad r h (by simp)) fun k hk => .cons (fun h => ?_) fun hpc =>
      .cons (fun h => ?_) fun hsp => ?_ <;> subst hk
    · rw [exec, execCall_regByte, returnAddress_error s (Nat.lt_of_not_le h)]; rfl
    · rw [exec, execCall_regByte, returnAddress_ok s hpc, decSp_error s (congrArg BitVec.toNat (Classical.not_not.1 h))]; rfl
    · exact .nil (.call k hpc (one_le_toNat_of_ne_zero hsp))
  | ret =>
    refine .cons (fun h => ?_) fun h => .nil (.ret (toNat_succ_le_of_ne_max h))
    rw [exec, execRet, incSp_error s (by rw [Classical.not_not.1 h]; decide)]; rfl
  | jmp r => exact .consReg (fun h => bad r h (by simp)) fun k hk => by subst hk; exact .nil (.jmp k)
  | jeq r =>
    refine .consReg (fun h => bad r h (by simp)) fun k hk => ?_
    subst hk
    by_cases e : s.fl = .equal
    · rw [if_pos e]; exact .nil (.jeqTaken k e)
    · rw [if_neg e]
      refine .lastNextPc (fun h => ?_) fun h => ⟨_, .jeqNotTaken k e h⟩
      rw [exec, execJeq_regByte, Flag.isEqual_eq_false e, branch, if_neg (by decide), advance_error 2 s h]; rfl
  | jne r =>
    refine .consReg (fun h => bad r h (by simp)) fun k hk => ?_
    subst hk
    by_cases e : s.fl = .equal
    · rw [if_pos e]
      refine .lastNextPc (fun h => ?_) fun h => ⟨_, .jneNotTaken k e h⟩
      rw [exec, execJne_regByte, (Flag.isEqual_iff _).2 e, branch, if_neg (by decide), advance_error 2 s h]; rfl
    · rw [if_neg e]; exact .nil (.jneTaken k e)

/-- Where the checks are the same, an instruction takes the same fault in both states or completes in the first. -/
theorem exec_of_execChecks_eq {i : Instr} {s s' : State} (h : s'.execChecks i = s.execChecks i) :
    (∃ f, exec i s = .next (s.faultedAt i f) ∧ exec i s' = .next (s'.faultedAt i f)) ∨ ∃ t, Completed s i t := by
  rcases exec_follows_checks i s with ⟨f, hf, e⟩ | ⟨-, c⟩
  · rcases exec_follows_checks i s' with ⟨f', hf', e'⟩ | ⟨hn, -⟩
    · rw [h, hf] at hf'
      cases hf'
      exact .inl ⟨f, e, e'⟩
    · rw [h, hf] at hn; cases hn
  · exact .inr c

/-! ### The checks of a step -/

/-- A step of `s` takes the fault of the first of its checks that fails; when none does it completes the instruction whose
opcode byte is at the PC. -/
def StepFollowsChecks (s : State) : Prop :=
  (∃ f, firstFailed s.checks = some f ∧ step s = .next (s.faultedBy f)) ∨
  (firstFailed s.checks = none ∧ ∃ i t, i.opcode = s.memRead s.pc ∧ Completed s i t ∧ step s = .next t)

variable {s : State}

theorem firstFailed_fetchCheck_ok {k : Nat} (cs : List Check) (h : s.pc.toNat + k ≤ 255) :
    firstFailed (s.fetchCheck k :: cs) = firstFailed cs := by
  simp [firstFailed, State.fetchCheck, h]

theorem firstFailed_fetchCheck_missing {k : Nat} (cs : List Check) (h : s.pc.toNat + k = 256) :
    firstFailed (s.fetchCheck k :: cs) = some (.addressOutOfRange .operandFetch 256) := by
  simp [firstFailed, State.fetchCheck, h]

/-- A step that runs `i`, once the checks of the operand fetch have passed. -/
theorem stepFollowsChecks_of_exec {i : Instr} (hop : i.opcode = s.memRead s.pc) (hstep : step s = exec i s)
    (hchecks : firstFailed s.checks = firstFailed (s.execChecks i)) : StepFollowsChecks s := by
  rcases exec_follows_checks i s with ⟨f, hf, e⟩ | ⟨hn, t, c⟩
  · refine .inl ⟨f, hchecks.trans hf, ?_⟩
    rw [hstep, e, State.faultedAt, State.faultedBy, hop]
  · exact .inr ⟨hchecks.trans hn, i, t, hop, c, hstep.trans c.exec_eq⟩

/-- Format R: the operand fetch is checked, then the instruction it gives runs. -/
theorem stepFollowsChecks_formatR (op : Byte) (build : Byte → Instr) (hs : s.status = .running)
    (ho : s.memRead s.pc = op) (hd : ∀ operands, decode op operands = decodeOne build operands)
    (hc : s.checks = s.fetchCheck 1 :: s.execChecks (build (s.operand 1))) : StepFollowsChecks s := by
  obtain ⟨hmissing, hthere⟩ := step_formatR s op build hs ho hd
  have hpc := s.pc.isLt
  by_cases h : s.pc.toNat ≤ 254
  · refine stepFollowsChecks_of_exec ?_ (hthere h) ?_
    · rw [ho]; exact opcode_of_decode (hd [s.operand 1])
    · rw [hc, firstFailed_fetchCheck_ok _ (Nat.succ_le_succ h)]
  · refine .inl ⟨_, ?_, hmissing (by omega)⟩
    rw [hc, firstFailed_fetchCheck_missing _ (by omega)]

/-- Formats RR and RI: both operand fetches are checked, the lower address first. -/
theorem stepFollowsChecks_formatTwo (op : Byte) (build : Byte → Byte → Instr) (hs : s.status = .running)
    (ho : s.memRead s.pc = op) (hd : ∀ operands, decode op operands = decodeTwo build operands)
    (hc : s.checks = s.fetchCheck 1 :: s.fetchCheck 2 :: s.execChecks (build (s.operand 1) (s.operand 2))) :
    StepFollowsChecks s := by
  obtain ⟨hmissing, hthere⟩ := step_formatTwo s op build hs ho hd
  have hpc := s.pc.isLt
  by_cases h : s.pc.toNat ≤ 253
  · refine stepFollowsChecks_of_exec ?_ (hthere h) ?_
    · rw [ho]; exact opcode_of_decode (hd [s.operand 1, s.operand 2])
    · rw [hc, firstFailed_fetchCheck_ok _ (by omega), firstFailed_fetchCheck_ok _ (by omega)]
  · refine .inl ⟨_, ?_, hmissing (by omega)⟩
    rw [hc]
    by_cases h' : s.pc.toNat = 254
    · rw [firstFailed_fetchCheck_ok _ (by omega), firstFailed_fetchCheck_missing _ (by omega)]
    · rw [firstFailed_fetchCheck_missing _ (by omega)]

/-- The instructions without operand bytes. -/
theorem stepFollowsChecks_formatNone (op : Byte) (i : Instr) (hs : s.status = .running) (ho : s.memRead s.pc = op)
    (hd : ∀ operands, decode op operands = .ok i) (hc : s.checks = s.execChecks i) : StepFollowsChecks s := by
  refine stepFollowsChecks_of_exec ?_ ?_ (congrArg firstFailed hc)
  · rw [ho]; exact opcode_of_decode (hd [])
  · rw [step_running s hs, State.fetchOpcode, ho, hd]

/-- A HLT has no check to fail (44_control.md R140). -/
theorem checks_hlt (h : s.memRead s.pc = 0x01) : s.checks = [] := by rw [State.checks, h]; rfl

/-- A byte that is no opcode has one check, which fails (30_encoding.md R65). -/
theorem checks_unrecognized (h : s.memRead s.pc ∉ opcodes) : s.checks = [⟨false, .unrecognizedOpcode⟩] := by
  unfold State.checks
  split
  iterate 13 exact absurd (by simp [opcodes, *]) h
  rfl

/-- Every step of a RUNNING core follows the checks of 60_exceptions.md R166. -/
theorem step_follows_checks (hs : s.status = .running) : StepFollowsChecks s := by
  rcases decode_cases (s.memRead s.pc) s.fetchOperands with ⟨h, -⟩ | ⟨h, -⟩ | ⟨h, -⟩ | ⟨h, -⟩ | ⟨h, -⟩ | ⟨h, -⟩ | ⟨h, -⟩ |
    ⟨h, -⟩ | ⟨h, -⟩ | ⟨h, -⟩ | ⟨h, -⟩ | ⟨h, -⟩ | ⟨h, -⟩ | ⟨h, e⟩
  · exact stepFollowsChecks_formatTwo _ .ldi hs h (fun _ => rfl) (by rw [State.checks, h]; rfl)
  · exact stepFollowsChecks_formatR _ .prn hs h (fun _ => rfl) (by rw [State.checks, h]; rfl)
  · exact stepFollowsChecks_formatNone _ .hlt hs h (fun _ => rfl) (checks_hlt h)
  · exact stepFollowsChecks_formatTwo _ .mul hs h (fun _ => rfl) (by rw [State.checks, h]; rfl)
  · exact stepFollowsChecks_formatTwo _ .add hs h (fun _ => rfl) (by rw [State.checks, h]; rfl)
  · exact stepFollowsChecks_formatR _ .push hs h (fun _ => rfl) (by rw [State.checks, h]; rfl)
  · exact stepFollowsChecks_formatR _ .pop hs h (fun _ => rfl) (by rw [State.checks, h]; rfl)
  · exact stepFollowsChecks_formatR _ .call hs h (fun _ => rfl) (by rw [State.checks, h]; rfl)
  · exact stepFollowsChecks_formatNone _ .ret hs h (fun _ => rfl) (by rw [State.checks, h]; rfl)
  · exact stepFollowsChecks_formatR _ .jmp hs h (fun _ => rfl) (by rw [State.checks, h]; rfl)
  · exact stepFollowsChecks_formatTwo _ .cmp hs h (fun _ => rfl) (by rw [State.checks, h]; rfl)
  · exact stepFollowsChecks_formatR _ .jeq hs h (fun _ => rfl) (by rw [State.checks, h]; rfl)
  · exact stepFollowsChecks_formatR _ .jne hs h (fun _ => rfl) (by rw [State.checks, h]; rfl)
  · refine .inl ⟨.unrecognizedOpcode, by rw [checks_unrecognized h]; rfl, ?_⟩
    rw [step_running s hs, State.fetchOpcode, e]; rfl

end Sys2Proof.Machine
end

section
/-! SUPPORT. What a completed instruction does to the status, FL, the output stream and the registers, one lemma per field. -/

namespace Sys2Proof.Machine

variable {i : Instr} {s t : State}

/-- The opcode byte of HLT is that of no other instruction. -/
theorem opcode_eq_hlt_iff (i : Instr) : i.opcode = 0x01 ↔ i = .hlt := by
  cases i <;> simp [Instr.opcode]

/-- HLT halts, and every other instruction that completes leaves the status alone (10_state.md R32). -/
theorem Completed.status_eq (c : Completed s i t) : t.status = if i = .hlt then .halted else s.status := by
  cases c <;> simp

/-- Only CMP writes FL (10_state.md R26). -/
theorem Completed.fl_eq_or_cmp (c : Completed s i t) :
    t.fl = s.fl ∨ ∃ a b x y, i = .cmp a b ∧ t.fl = compareFlag x y := by
  cases c with
  | cmp a b h => exact .inr ⟨_, _, _, _, rfl, rfl⟩
  | _ => exact .inl rfl

/-- Only PRN appends to the output stream (10_state.md R33). -/
theorem Completed.out_eq_or_prn (c : Completed s i t) :
    t.out = s.out ∨ ∃ r : Fin 8, i = .prn (regByte r) ∧ t.out = s.out ++ [s.reg r] := by
  cases c with
  | prn r h => exact .inr ⟨r, rfl, rfl⟩
  | _ => exact .inl rfl

/-- Only the registers of the table of 10_state.md R22 are written. -/
theorem Completed.reg_eq_of_not_writesReg (c : Completed s i t) {j : Fin 8} (hj : ¬ writesReg j i) :
    t.reg j = s.reg j := by
  have hne : ∀ k : Fin 8, ¬ regByte k = regByte j → j ≠ k := fun k h e => h (congrArg regByte e.symm)
  cases c with
  | ldi r imm h => exact s.reg_setReg_ne r j imm (hne r hj)
  | mul a b h | add a b h => exact s.reg_setReg_ne a j _ (hne a hj)
  | push r h h2 | call r h h2 | ret h => exact s.reg_setReg_ne spIndex j _ hj
  | pop r h h2 =>
    obtain ⟨hr, hsp⟩ := not_or.1 hj
    exact (State.reg_setReg_ne _ spIndex j _ hsp).trans (s.reg_setReg_ne r j _ (hne r hr))
  | _ => rfl

/-- CMP never leaves CLEAR (42_alu.md R114). -/
theorem compareFlag_ne_clear (x y : Byte) : compareFlag x y ≠ .clear := by
  unfold compareFlag
  split
  · simp
  · split <;> simp

/-- FL is not CLEAR after a completed instruction if it was not before. -/
theorem Completed.fl_ne_clear (c : Completed s i t) (h : s.fl ≠ .clear) : t.fl ≠ .clear := by
  rcases c.fl_eq_or_cmp with e | ⟨_, _, x, y, -, e⟩
  · rwa [e]
  · exact e ▸ compareFlag_ne_clear x y

end Sys2Proof.Machine
end

section
/-! The obligation on the run status (10_state.md R32). -/

namespace Sys2Proof.Machine

/-- A stopped core is the same state after any number of steps. -/
theorem run_stopped {s : State} (h : s.status ≠ .running) (n : Nat) : Sys2Proof.core.run n s = .next s := by
  induction n with
  | zero => rfl
  | succ n ih => rw [run_succ n s s (step_stopped s h), ih]

/-- The status after a step of a RUNNING core, by the first check that fails. -/
theorem status_after_step {s t : State} (hs : s.status = .running) (h : step s = .next t) :
    t.status = match firstFailed s.checks with
      | some f => .faulted { pc := s.pc, ir := s.memRead s.pc, fault := f }
      | none => if s.memRead s.pc = 0x01 then .halted else .running := by
  rcases step_follows_checks hs with ⟨f, hf, e⟩ | ⟨hn, i, u, hop, c, e⟩
  · cases e.symm.trans h
    rw [hf]; rfl
  · cases e.symm.trans h
    rw [hn, c.status_eq, hs, ← hop]
    simp only [opcode_eq_hlt_iff]

/-- Settles O37: a run of a stopped core by induction on its length; the rest from `status_after_step`, with no check of a HLT
that can fail. -/
theorem stoppedCoreStaysAsItIs : Obligations.StoppedCoreStaysAsItIs := by
  refine ⟨fun s t n hs h => ?_, fun s t hs h => ?_, fun s t hs h => ?_, fun s t f hs h hf => ?_⟩
  · exact (Host.Outcome.next.inj ((run_stopped hs n).symm.trans h)).symm
  · rw [status_after_step hs h]
    cases hf : firstFailed s.checks with
    | none => by_cases hop : s.memRead s.pc = 0x01 <;> simp [hop]
    | some f =>
      exact iff_of_false nofun fun hop => by rw [checks_hlt hop] at hf; cases hf
  · rw [status_after_step hs h]
    cases firstFailed s.checks with
    | none => by_cases hop : s.memRead s.pc = 0x01 <;> simp [hop]
    | some f => simp
  · rw [status_after_step hs h, hf]

end Sys2Proof.Machine
end

section
/-! The obligations on FL (10_state.md R25 and R26). -/

namespace Sys2Proof.Machine

variable {i : Instr} {s t : State}

/-- An instruction that does not read FL has the same checks whatever FL holds. -/
theorem execChecks_setFl (f : Flag) (hi : readsFl i = false) : (s.setFl f).execChecks i = s.execChecks i := by
  cases i with
  | jeq r | jne r => cases hi
  | _ => rfl

/-- From another value in FL an instruction that does not read it completes in the same state, or in the one that differs
in FL alone, which is kept. -/
theorem Completed.of_setFl (c : Completed s i t) (f : Flag) (hi : readsFl i = false) :
    ∃ u, Completed (s.setFl f) i u ∧ (u = t ∨ (u = t.setFl f ∧ t.fl = s.fl)) := by
  cases c with
  | ldi r imm h => exact ⟨_, .ldi r imm h, .inr ⟨rfl, rfl⟩⟩
  | prn r h => exact ⟨_, .prn r h, .inr ⟨rfl, rfl⟩⟩
  | hlt => exact ⟨_, .hlt, .inr ⟨rfl, rfl⟩⟩
  | mul a b h => exact ⟨_, .mul a b h, .inr ⟨rfl, rfl⟩⟩
  | add a b h => exact ⟨_, .add a b h, .inr ⟨rfl, rfl⟩⟩
  | push r h h2 => exact ⟨_, .push r h h2, .inr ⟨rfl, rfl⟩⟩
  | pop r h h2 => exact ⟨_, .pop r h h2, .inr ⟨rfl, rfl⟩⟩
  | call r h h2 => exact ⟨_, .call r h h2, .inr ⟨rfl, rfl⟩⟩
  | ret h => exact ⟨_, .ret h, .inr ⟨rfl, rfl⟩⟩
  | jmp r => exact ⟨_, .jmp r, .inr ⟨rfl, rfl⟩⟩
  | cmp a b h => exact ⟨_, .cmp a b h, .inl rfl⟩
  | jeqTaken | jeqNotTaken | jneTaken | jneNotTaken => cases hi

/-- Settles O40: a fault and every instruction but CMP leave FL alone; and with the same checks in both states the
instruction faults alike or completes alike. -/
theorem flIsWrittenByCmpAndReadByJumps : Obligations.FlIsWrittenByCmpAndReadByJumps := by
  refine ⟨fun i s t h hne => ?_, fun i s f hi => ?_⟩
  · rcases exec_next_cases h with ⟨f, rfl⟩ | c
    · exact absurd rfl hne
    · rcases c.fl_eq_or_cmp with e | ⟨a, b, _, _, e, _⟩
      · exact absurd e hne
      · exact ⟨a, b, e⟩
  · rcases exec_of_execChecks_eq (execChecks_setFl f hi) with ⟨g, e, e'⟩ | ⟨t, c⟩
    · exact ⟨_, _, e, e', rfl, .inr ⟨rfl, rfl⟩⟩
    · obtain ⟨u, c', rfl | ⟨rfl, hfl⟩⟩ := c.of_setFl f hi
      · exact ⟨u, u, c.exec_eq, c'.exec_eq, rfl, .inl rfl⟩
      · exact ⟨t, _, c.exec_eq, c'.exec_eq, rfl, .inr ⟨hfl, rfl⟩⟩

/-- Settles O41: CMP's flag is never CLEAR, and nothing else writes FL. -/
theorem flNeverReturnsToClear : Obligations.FlNeverReturnsToClear := by
  refine ⟨rfl, fun a b s t _ h hsafe => ?_, fun s t hfl h => ?_⟩
  · rcases exec_next_cases h with ⟨f, rfl⟩ | c
    · exact absurd rfl (hsafe _)
    · cases c with
      | cmp k l _ => exact compareFlag_ne_clear _ _
  · by_cases hs : s.status = .running
    · rcases step_follows_checks hs with ⟨f, -, e⟩ | ⟨-, i, u, -, c, e⟩
      · cases e.symm.trans h; exact hfl
      · cases e.symm.trans h; exact c.fl_ne_clear hfl
    · cases (step_stopped s hs).symm.trans h; exact hfl

end Sys2Proof.Machine
end

section
/-! The obligation on the output stream (10_state.md R33). -/

namespace Sys2Proof.Machine

variable {s t : State}

/-- A PRN that completes in a step emits the register that the byte after the opcode byte names. -/
theorem out_after_prn_step (hs : s.status = .running) (ho : s.memRead s.pc = 0x47) (h : step s = .next t)
    (ht : t.status = .running) : ∃ r : Fin 8, s.operand 1 = regByte r ∧ t.out = s.out ++ [s.reg r] := by
  obtain ⟨hmissing, hthere⟩ := step_formatR s _ .prn hs ho fun _ => rfl
  have hpc := s.pc.isLt
  by_cases h254 : s.pc.toNat ≤ 254
  · rcases exec_next_cases ((hthere h254).symm.trans h) with ⟨f, rfl⟩ | c
    · cases ht
    · generalize s.operand 1 = v at c
      cases c with
      | prn r _ => exact ⟨r, rfl, rfl⟩
  · cases (hmissing (by omega)).symm.trans h
    cases ht

/-- A step that is not that of a completing PRN leaves the output stream as it is. -/
theorem out_after_other_step (h : step s = .next t)
    (hnot : ¬ (s.status = .running ∧ s.memRead s.pc = 0x47 ∧ t.status = .running)) : t.out = s.out := by
  by_cases hs : s.status = .running
  · rcases step_follows_checks hs with ⟨f, -, e⟩ | ⟨-, i, u, hop, c, e⟩
    · cases e.symm.trans h; rfl
    · cases e.symm.trans h
      rcases c.out_eq_or_prn with hout | ⟨r, rfl, -⟩
      · exact hout
      · exact absurd ⟨hs, hop.symm, c.status_eq.trans hs⟩ hnot
  · cases (step_stopped s hs).symm.trans h; rfl

/-- Settles O43: the two cases of the step. -/
theorem outputGrowsOnlyByPrn : Obligations.OutputGrowsOnlyByPrn := by
  intro s t h
  split
  · next hprn =>
    obtain ⟨hs, ho, ht⟩ := hprn
    exact out_after_prn_step hs ho h ht
  · next hnot => exact out_after_other_step h hnot

end Sys2Proof.Machine
end

section
/-! The obligation on the registers (10_state.md R22). -/

namespace Sys2Proof.Machine

variable {i : Instr} {s t u : State} {j : Fin 8} {v : Byte}

/-- Writing the value a register already holds changes nothing. -/
@[simp] theorem State.setReg_reg_self (s : State) (j : Fin 8) : s.setReg j (s.reg j) = s := by
  refine State.ext_reg rfl (fun k => ?_) rfl rfl rfl rfl
  rw [State.reg_setReg]
  split
  · next h => rw [h]
  · rfl

/-- Writes to two registers can be made in either order. -/
theorem State.setReg_comm (s : State) {j k : Fin 8} (h : k ≠ j) (v w : Byte) :
    (s.setReg j v).setReg k w = (s.setReg k w).setReg j v := by
  refine State.ext_reg rfl (fun l => ?_) rfl rfl rfl rfl
  simp only [State.reg_setReg]
  by_cases hk : l = k
  · subst hk; simp [h]
  · simp [hk]

/-- SP is not the register written. -/
theorem State.sp_setReg_ne (s : State) (v : Byte) (h : j ≠ spIndex) : (s.setReg j v).sp = s.sp :=
  State.reg_setReg_ne s j spIndex v (Ne.symm h)

/-- A register read after SP and another register were written. -/
theorem State.reg_setSp_setReg_ne (s : State) (r : Fin 8) (v x : Byte) (h : r ≠ j) :
    ((s.setReg j v).setSp x).reg r = (s.setSp x).reg r := by
  rw [State.reg_setSp, State.reg_setSp, State.reg_setReg_ne s j r v h]

/-- `u` is what becomes of `t` when `s`, which `t` comes from, held `v` in register `j`: register `j` was written since
and nothing is different, or it was kept and only it is different. -/
def RegWrittenOrKept (j : Fin 8) (v : Byte) (s t u : State) : Prop :=
  u = t ∨ (u = t.setReg j v ∧ t.reg j = s.reg j)

theorem RegWrittenOrKept.start : RegWrittenOrKept j v s s (s.setReg j v) := .inr ⟨rfl, rfl⟩

/-- The same register write on both sides. -/
theorem RegWrittenOrKept.setReg (h : RegWrittenOrKept j v s t u) (k : Fin 8) (w : Byte) :
    RegWrittenOrKept j v s (t.setReg k w) (u.setReg k w) := by
  rcases h with rfl | ⟨rfl, hr⟩
  · exact .inl rfl
  · by_cases hk : k = j
    · subst hk; exact .inl (State.setReg_setReg_same t k v w)
    · exact .inr ⟨t.setReg_comm hk v w, (t.reg_setReg_ne k j w (Ne.symm hk)).trans hr⟩

/-- The same update on both sides, one that does not touch the registers. -/
theorem RegWrittenOrKept.map (h : RegWrittenOrKept j v s t u) (g : State → State)
    (hg : ∀ t, g (t.setReg j v) = (g t).setReg j v) (hreg : ∀ t, (g t).reg j = t.reg j) :
    RegWrittenOrKept j v s (g t) (g u) := by
  rcases h with rfl | ⟨rfl, hr⟩
  · exact .inl rfl
  · exact .inr ⟨hg t, (hreg t).trans hr⟩

theorem RegWrittenOrKept.jump (h : RegWrittenOrKept j v s t u) (a : Byte) :
    RegWrittenOrKept j v s (t.jump a) (u.jump a) := h.map (·.jump a) (fun _ => rfl) fun _ => rfl

theorem RegWrittenOrKept.memWrite (h : RegWrittenOrKept j v s t u) (a w : Byte) :
    RegWrittenOrKept j v s (t.memWrite a w) (u.memWrite a w) := h.map (·.memWrite a w) (fun _ => rfl) fun _ => rfl

@[simp] theorem State.nextPcCheck_setReg (s : State) (j : Fin 8) (v : Byte) (len : Nat) :
    (s.setReg j v).nextPcCheck len = s.nextPcCheck len := rfl

@[simp] theorem State.returnCheck_setReg (s : State) (j : Fin 8) (v : Byte) :
    (s.setReg j v).returnCheck = s.returnCheck := rfl

theorem State.decCheck_setReg_ne (s : State) (v : Byte) (h : j ≠ spIndex) : (s.setReg j v).decCheck = s.decCheck := by
  rw [State.decCheck, s.sp_setReg_ne v h, State.decCheck]

/-- An instruction that does not read register `j` has the same checks whatever `j` holds. -/
theorem execChecks_setReg (v : Byte) (hj : ¬ readsReg s j i) : (s.setReg j v).execChecks i = s.execChecks i := by
  cases i with
  | push r | call r =>
    simp [State.execChecks, s.decCheck_setReg_ne v fun e => hj (.inl e)]
  | pop r | ret =>
    simp [State.execChecks, s.sp_setReg_ne v hj]
  | _ => rfl

/-- From another value in a register that it does not read, an instruction completes in the same state, or in the one that
differs in that register alone, which is kept. -/
theorem Completed.of_setReg (c : Completed s i t) (v : Byte) (hj : ¬ readsReg s j i) :
    ∃ u, Completed (s.setReg j v) i u ∧ RegWrittenOrKept j v s t u := by
  have start : RegWrittenOrKept j v s s (s.setReg j v) := .start
  have hreg : ∀ r : Fin 8, ¬ regByte r = regByte j → (s.setReg j v).reg r = s.reg r :=
    fun r h => s.reg_setReg_ne j r v fun e => h (congrArg regByte e)
  cases c with
  | ldi r imm h => exact ⟨_, .ldi r imm h, (start.setReg r imm).jump _⟩
  | prn r h =>
    refine ⟨_, .prn r h, ?_⟩
    rw [hreg r hj]
    exact (start.map (·.emit _) (fun _ => rfl) fun _ => rfl).jump _
  | hlt => exact ⟨_, .hlt, start.map State.halt (fun _ => rfl) fun _ => rfl⟩
  | mul a b h =>
    obtain ⟨ha, hb⟩ := not_or.1 hj
    refine ⟨_, .mul a b h, ?_⟩
    rw [hreg a ha, hreg b hb]
    exact (start.setReg a _).jump _
  | add a b h =>
    obtain ⟨ha, hb⟩ := not_or.1 hj
    refine ⟨_, .add a b h, ?_⟩
    rw [hreg a ha, hreg b hb]
    exact (start.setReg a _).jump _
  | push r h h2 =>
    obtain ⟨hsp, hr⟩ := not_or.1 hj
    have e := s.sp_setReg_ne v hsp
    refine ⟨_, .push r (e ▸ h) h2, ?_⟩
    rw [e, s.reg_setSp_setReg_ne r v _ fun e => hr (congrArg regByte e)]
    exact ((start.setReg spIndex _).memWrite _ _).jump _
  | pop r h h2 =>
    have e := s.sp_setReg_ne v hj
    refine ⟨_, .pop r (by rw [State.setReg_memRead, e]; exact h) h2, ?_⟩
    rw [State.setReg_memRead, e]
    exact ((start.setReg r _).setReg spIndex _).jump _
  | call r h h2 =>
    obtain ⟨hsp, hr⟩ := not_or.1 hj
    have e := s.sp_setReg_ne v hsp
    refine ⟨_, .call r h (e ▸ h2), ?_⟩
    rw [e, s.reg_setSp_setReg_ne r v _ fun e => hr (congrArg regByte e)]
    exact ((start.setReg spIndex _).memWrite _ _).jump _
  | ret h =>
    have e := s.sp_setReg_ne v hj
    refine ⟨_, .ret (e ▸ h), ?_⟩
    rw [State.setReg_memRead, e]
    exact (start.setReg spIndex _).jump _
  | jmp r => exact ⟨_, .jmp r, hreg r hj ▸ start.jump _⟩
  | cmp a b h =>
    obtain ⟨ha, hb⟩ := not_or.1 hj
    refine ⟨_, .cmp a b h, ?_⟩
    rw [hreg a ha, hreg b hb]
    exact (start.map (·.setFl (compareFlag (s.reg a) (s.reg b))) (fun _ => rfl) fun _ => rfl).jump _
  | jeqTaken r e => exact ⟨_, .jeqTaken r e, hreg r (fun hr => hj ⟨e, hr⟩) ▸ start.jump _⟩
  | jeqNotTaken r e h => exact ⟨_, .jeqNotTaken r e h, start.jump _⟩
  | jneTaken r e => exact ⟨_, .jneTaken r e, hreg r (fun hr => hj ⟨e, hr⟩) ▸ start.jump _⟩
  | jneNotTaken r e h => exact ⟨_, .jneNotTaken r e h, start.jump _⟩

/-- Settles O44: a fault and a completed instruction leave the unlisted registers alone; and with the same checks in both
states the instruction faults alike or completes alike. -/
theorem registersReadAndWrittenAsListed : Obligations.RegistersReadAndWrittenAsListed := by
  refine ⟨State.reg_setReg_same, fun i s t j h hne => ?_, fun i s j v hj => ?_⟩
  · rcases exec_next_cases h with ⟨f, rfl⟩ | c
    · exact absurd rfl hne
    · exact Classical.not_not.1 fun hj => hne (c.reg_eq_of_not_writesReg hj)
  · rcases exec_of_execChecks_eq (execChecks_setReg v hj) with ⟨f, e, e'⟩ | ⟨t, c⟩
    · have hv : ((s.setReg j v).faultedAt i f).reg j = v := State.reg_setReg_same s j v
      exact ⟨_, _, e, e', by rw [hv]; rfl, .inr ⟨rfl, hv⟩⟩
    · obtain ⟨u, c', rfl | ⟨rfl, hr⟩⟩ := c.of_setReg v hj
      · exact ⟨u, u, c.exec_eq, c'.exec_eq, (State.setReg_reg_self u j).symm, .inl rfl⟩
      · exact ⟨t, _, c.exec_eq, c'.exec_eq, by rw [State.reg_setReg_same], .inr ⟨hr, State.reg_setReg_same t j v⟩⟩

end Sys2Proof.Machine
end

section
/-! The obligation on the launch (10_state.md R35, 70_reset_and_hazards.md R182). -/

namespace Sys2Proof.Machine

/-- The cell `k` places above where `vs` was placed holds byte `k` of `vs`, and what it held if `vs` is not that long. -/
theorem State.placeBytes_get_add (vs : List Byte) (s : State) (a k : Nat) (hwf : s.mem.wf) (h : a + k ≤ 255) :
    (s.placeBytes a vs).mem.get (a + k) = vs.getD k (s.mem.get (a + k)) := by
  induction vs generalizing s a k with
  | nil => rfl
  | cons v vs ih =>
    have ha : a ≤ Config.maxAddr := Nat.le_trans (Nat.le_add_right a k) h
    rw [State.placeBytes, if_pos ha]
    cases k with
    | zero =>
      rw [State.placeBytes_get_lt vs _ (a + 1) (a + 0) (Nat.lt_succ_self a)]
      exact Memory.get_set_same s.mem a v hwf
    | succ k =>
      rw [← Nat.succ_add_eq_add_succ a k] at h ⊢
      rw [ih _ (a + 1) k (Memory.wf_set _ _ _ (Nat.lt_succ_of_le ha) hwf) h,
        Memory.get_set_ne _ _ _ _ (by omega)]
      rfl

/-- Settles O50: the launch places the image in the zeroed memory of reset and changes nothing else. -/
theorem launchLoadsTheImage : Obligations.LaunchLoadsTheImage := by
  refine ⟨fun image h => ?_, fun image h => if_neg (Nat.not_le.2 h), State.reset, rfl, rfl⟩
  refine ⟨State.reset.placeBytes 0 image, if_pos h, fun a => ?_, ?_⟩
  · have hget := State.placeBytes_get_add image .reset 0 a.toNat State.reset_mem_wf (by have := a.isLt; omega)
    rwa [Nat.zero_add] at hget
  · rw [State.placeBytes_frame]
    have hreset : ∀ i : Fin 8, State.reset.reg i = if i = spIndex then 0xF4 else 0 := by decide
    exact ⟨hreset, rfl, rfl, rfl, rfl⟩

end Sys2Proof.Machine
end

section
/-! The obligation on the order of reads and writes (20_memory.md R50). -/

namespace Sys2Proof.Machine

variable {s : State}

/-- A byte write changes the byte at its own address and no other. -/
theorem State.memRead_memWrite (a v b : Byte) (h : s.mem.wf) :
    (s.memWrite a v).memRead b = if a = b then v else s.memRead b := by
  split
  · next e => exact e ▸ s.memRead_memWrite_same a v h
  · next hne => exact s.memRead_memWrite_ne a b v (Ne.symm hne)

/-- An operand byte is a read of its address, which does not wrap (40_cycle.md R81). -/
theorem operandByte_eq_memRead (k : Nat) (h : s.pc.toNat + k ≤ 255) :
    s.operandByte k = some (s.memRead (s.pc + BitVec.ofNat 8 k)) := by
  rw [operandByte_some s k h, State.memRead, ← ofNat_toNat_add, toNat_ofNat_byte _ h, State.operand]

/-- The state after the byte writes `ws`, made first to last. -/
def State.memWrites (s : State) (ws : List (Byte × Byte)) : State := ws.foldl (fun u w => u.memWrite w.1 w.2) s

/-- The byte of the last of the writes `ws` to address `b`, and what `s` holds there if none of them is to `b`. -/
def State.lastWritten (s : State) (ws : List (Byte × Byte)) (b : Byte) : Byte :=
  ((ws.reverse.find? fun w => decide (w.1 = b)).map Prod.snd).getD (s.memRead b)

theorem State.memWrites_cons (s : State) (w : Byte × Byte) (ws : List (Byte × Byte)) :
    s.memWrites (w :: ws) = (s.memWrite w.1 w.2).memWrites ws := rfl

/-- The first of the writes counts only where no later one is to the same address. -/
theorem State.lastWritten_cons (w : Byte × Byte) (ws : List (Byte × Byte)) (b : Byte) (h : s.mem.wf) :
    s.lastWritten (w :: ws) b = (s.memWrite w.1 w.2).lastWritten ws b := by
  rw [lastWritten, lastWritten, List.reverse_cons, List.find?_append, State.memRead_memWrite _ _ _ h]
  cases ws.reverse.find? fun w => decide (w.1 = b) with
  | some later => rfl
  | none =>
    rw [Option.none_or, List.find?_singleton]
    by_cases e : w.1 = b
    · rw [if_pos (decide_eq_true e), if_pos e, Option.map_some, Option.getD_some, Option.map_none, Option.getD_none]
    · rw [if_neg (mt of_decide_eq_true e), if_neg e, Option.map_none, Option.getD_none]

theorem State.memWrites_pc (s : State) (ws : List (Byte × Byte)) : (s.memWrites ws).pc = s.pc := by
  induction ws generalizing s with
  | nil => rfl
  | cons w ws ih => exact ih (s.memWrite w.1 w.2)

theorem State.memRead_memWrites (ws : List (Byte × Byte)) (b : Byte) (h : s.mem.wf) :
    (s.memWrites ws).memRead b = s.lastWritten ws b := by
  induction ws generalizing s with
  | nil => rfl
  | cons w ws ih =>
    rw [State.memWrites_cons, State.lastWritten_cons w ws b h, ih (State.memWrite_mem_wf s w.1 w.2 h)]

/-- Settles O45: the law of reads after the writes, for which both fetches are reads at addresses the writes do not move. -/
theorem readReturnsLastWrite : Obligations.ReadReturnsLastWrite := by
  intro s ws a hwf
  have hread := fun b => State.memRead_memWrites ws b hwf
  have hopcode : (s.memWrites ws).fetchOpcode = s.lastWritten ws s.pc := by
    rw [State.fetchOpcode, State.memWrites_pc, hread]
  have hoperand : ∀ k, s.pc.toNat + k ≤ 255 →
      (s.memWrites ws).operandByte k = some (s.lastWritten ws (s.pc + BitVec.ofNat 8 k)) := fun k hk => by
    have hpc := s.memWrites_pc ws
    rw [operandByte_eq_memRead k (by rwa [hpc]), hpc, hread]
  exact ⟨hread a, hopcode, hoperand⟩

end Sys2Proof.Machine
end

section
/-! The obligation on the instructions that use memory (20_memory.md R40). -/

namespace Sys2Proof.Machine

variable {i : Instr} {s t : State}

/-- The store that ends a push, seen from the SP it leaves (43_stack.md R131). -/
theorem State.mem_after_stack_store (s : State) (sp v pc : Byte) :
    (((s.setSp sp).memWrite sp v).jump pc).mem = s.mem.set (((s.setSp sp).memWrite sp v).jump pc).sp.toNat v := by
  rw [State.jump_sp, State.memWrite_sp, State.setSp_sp]; rfl

/-- Only PUSH and CALL write memory: one byte at the new SP, which for CALL is the return address. -/
theorem Completed.mem_eq_or_stores (c : Completed s i t) :
    t.mem = s.mem ∨ ∃ r v, t.mem = s.mem.set t.sp.toNat v ∧ (i = .push r ∨ i = .call r ∧ v.toNat = s.pc.toNat + 2) := by
  cases c with
  | push r h h2 => exact .inr ⟨regByte r, _, s.mem_after_stack_store _ _ _, .inl rfl⟩
  | call r h h2 => exact .inr ⟨regByte r, _, s.mem_after_stack_store _ _ _, .inr ⟨rfl, toNat_ofNat_byte _ h⟩⟩
  | _ => exact .inl rfl

/-- An instruction that does not read memory has the same checks whatever memory holds. -/
theorem execChecks_withMem (m : Memory) (hi : readsMem i = false) :
    ({ s with mem := m } : State).execChecks i = s.execChecks i := by
  cases i with
  | pop r | ret => cases hi
  | _ => rfl

/-- From another content of memory an instruction that does not read it completes in the state that differs in memory
alone, which is kept or gets the same byte in the same cell. -/
theorem Completed.of_withMem (c : Completed s i t) (m : Memory) (hi : readsMem i = false) :
    ∃ m', Completed { s with mem := m } i { t with mem := m' } ∧
      ((t.mem = s.mem ∧ m' = m) ∨ ∃ a v, t.mem = s.mem.set a v ∧ m' = m.set a v) := by
  cases c with
  | ldi r imm h => exact ⟨m, .ldi r imm h, .inl ⟨rfl, rfl⟩⟩
  | prn r h => exact ⟨m, .prn r h, .inl ⟨rfl, rfl⟩⟩
  | hlt => exact ⟨m, .hlt, .inl ⟨rfl, rfl⟩⟩
  | mul a b h => exact ⟨m, .mul a b h, .inl ⟨rfl, rfl⟩⟩
  | add a b h => exact ⟨m, .add a b h, .inl ⟨rfl, rfl⟩⟩
  | push r h h2 => exact ⟨_, .push r h h2, .inr ⟨_, _, rfl, rfl⟩⟩
  | call r h h2 => exact ⟨_, .call r h h2, .inr ⟨_, _, rfl, rfl⟩⟩
  | jmp r => exact ⟨m, .jmp r, .inl ⟨rfl, rfl⟩⟩
  | cmp a b h => exact ⟨m, .cmp a b h, .inl ⟨rfl, rfl⟩⟩
  | jeqTaken r e => exact ⟨m, .jeqTaken r e, .inl ⟨rfl, rfl⟩⟩
  | jeqNotTaken r e h => exact ⟨m, .jeqNotTaken r e h, .inl ⟨rfl, rfl⟩⟩
  | jneTaken r e => exact ⟨m, .jneTaken r e, .inl ⟨rfl, rfl⟩⟩
  | jneNotTaken r e h => exact ⟨m, .jneNotTaken r e h, .inl ⟨rfl, rfl⟩⟩
  | pop | ret => cases hi

/-- After the same write to two canonical memories a cell holds the same in both, or in each what it held. -/
theorem Memory.get_set_same_or_kept {m m' : Memory} (hm : m.wf) (hm' : m'.wf) (a b : Nat) (v : Byte) :
    (m'.set a v).get b = (m.set a v).get b ∨ ((m.set a v).get b = m.get b ∧ (m'.set a v).get b = m'.get b) := by
  by_cases h : b = a
  · subst h; exact .inl ((Memory.get_set_same m' b v hm').trans (Memory.get_set_same m b v hm).symm)
  · exact .inr ⟨Memory.get_set_ne m a b v h, Memory.get_set_ne m' a b v h⟩

/-- Settles O42: a fault and every instruction but PUSH and CALL leave memory alone; and with the same checks in both states
the instruction faults alike or completes alike. -/
theorem memoryIsWrittenByPushAndCall : Obligations.MemoryIsWrittenByPushAndCall := by
  refine ⟨fun i s t a h hne => ?_, fun i s m hi => ?_⟩
  · rcases exec_next_cases h with ⟨f, rfl⟩ | c
    · exact absurd rfl hne
    · obtain e | ⟨r, v, e, hi⟩ := c.mem_eq_or_stores
      · exact absurd (congrArg (·.get a.toNat) e) hne
      · have ha : a = t.sp := Classical.not_not.1 fun hsp =>
          hne ((congrArg (·.get a.toNat) e).trans (s.memRead_memWrite_ne t.sp a v hsp))
        refine ⟨ha, r, hi.imp_right fun ⟨hr, hv⟩ => ⟨hr, fun hwf => ?_⟩⟩
        rw [ha, State.memRead, e, Memory.get_set_same _ _ _ hwf, hv]
  · rcases exec_of_execChecks_eq (execChecks_withMem m hi) with ⟨f, e, e'⟩ | ⟨t, c⟩
    · exact ⟨_, _, e, e', rfl, fun _ _ _ => .inr ⟨rfl, rfl⟩⟩
    · obtain ⟨m', c', hm⟩ := c.of_withMem m hi
      refine ⟨t, _, c.exec_eq, c'.exec_eq, rfl, fun hs hwf b => ?_⟩
      obtain ⟨e, rfl⟩ | ⟨a, v, e, rfl⟩ := hm
      · exact .inr ⟨congrArg (·.get b.toNat) e, rfl⟩
      · simp only [State.memRead, e]
        exact Memory.get_set_same_or_kept hs hwf a b.toNat v

end Sys2Proof.Machine
end

section
/-! The obligations on the opcode table (30_encoding.md R64, R65). -/

namespace Sys2Proof.Machine

/-- Row `i` of the opcode table: its opcode byte and its operand bytes decode to it, whatever follows (30_encoding.md R64). -/
theorem decode_opcode_operandBytes (i : Instr) (rest : List Byte) :
    decode i.opcode (i.operandBytes ++ rest) = .ok i := by
  cases i <;> rfl

/-- A byte that is none of the 13 opcodes is refused: the last of `decode_cases` (30_encoding.md R65). -/
theorem decode_of_not_mem_opcodes {op : Byte} (h : op ∉ opcodes) (operands : List Byte) :
    decode op operands = .error .unrecognizedOpcode := by
  rcases decode_cases op operands with ⟨rfl, -⟩ | ⟨rfl, -⟩ | ⟨rfl, -⟩ | ⟨rfl, -⟩ | ⟨rfl, -⟩ | ⟨rfl, -⟩ | ⟨rfl, -⟩ |
    ⟨rfl, -⟩ | ⟨rfl, -⟩ | ⟨rfl, -⟩ | ⟨rfl, -⟩ | ⟨rfl, -⟩ | ⟨rfl, -⟩ | ⟨-, e⟩
  iterate 13 exact absurd (by decide) h
  exact e

/-- The numbers below 256 that are opcode bytes are those of the table, each once. -/
theorem filter_mem_opcodes_perm :
    ((List.range 256).filter fun n => decide (BitVec.ofNat 8 n ∈ opcodes)).Perm (opcodes.map BitVec.toNat) := by
  refine (List.perm_ext_iff_of_nodup (List.nodup_range.filter _) (by decide)).2 fun n => ?_
  rw [List.mem_filter, List.mem_range, decide_eq_true_iff, List.mem_map]
  constructor
  · rintro ⟨hn, hmem⟩
    exact ⟨_, hmem, toNat_ofNat_byte n (Nat.le_of_lt_succ hn)⟩
  · rintro ⟨op, hmem, rfl⟩
    exact ⟨op.isLt, by rwa [BitVec.ofNat_toNat, BitVec.setWidth_eq]⟩

/-- Of the 256 byte values 243 are no opcode, for the 13 of the table are distinct. -/
theorem length_filter_not_mem_opcodes :
    ((List.range 256).filter fun n => !decide (BitVec.ofNat 8 n ∈ opcodes)).length = 243 := by
  have hsplit := (List.filter_append_perm (fun n => decide (BitVec.ofNat 8 n ∈ opcodes)) (List.range 256)).length_eq
  simp only [List.length_append, filter_mem_opcodes_perm.length_eq, List.length_map, List.length_range] at hsplit
  have hrows : opcodes.length = 13 := rfl
  omega

/-- Settles O27: the 13 rows, their lengths by the definition of `Instr.length`, and the refusal of every other byte. -/
theorem opcodeTableDecodes : Obligations.OpcodeTableDecodes := by
  intro a b rest
  have row := fun i => decode_opcode_operandBytes i rest
  exact ⟨row (.ldi a b), row (.prn a), row .hlt, row (.mul a b), row (.add a b), row (.push a), row (.pop a),
    row (.call a), row .ret, row (.jmp a), row (.cmp a b), row (.jeq a), row (.jne a),
    rfl, rfl, rfl, rfl, rfl, rfl, rfl, rfl, rfl, rfl, rfl, rfl, rfl,
    fun _ h => decode_of_not_mem_opcodes h rest⟩

/-- Settles O32: the step of a RUNNING core takes the decoder's refusal as its fault, and the bytes that the decoder refuses
are those that are no opcode. -/
theorem illegalOpcodeFaults : Obligations.IllegalOpcodeFaults := by
  refine ⟨fun s hs h => ?_, ?_⟩
  · rw [step_running s hs, State.fetchOpcode, decode_of_not_mem_opcodes h]
    exact raiseDecode_unrecognized s
  · rw [← length_filter_not_mem_opcodes]
    refine congrArg List.length (List.filter_congr fun n _ => ?_)
    by_cases h : BitVec.ofNat 8 n ∈ opcodes
    · rw [decide_eq_true h]
      generalize BitVec.ofNat 8 n = op at h ⊢
      revert op
      decide
    · rw [decide_eq_false h, decode_of_not_mem_opcodes h]
      rfl

end Sys2Proof.Machine
end

section
/-! The obligation on the operand fetch (40_cycle.md R81): the bytes it gives are the first of `operand 1`, `operand 2`
that memory has room for, so they begin with the operand bytes of the instruction there, or are too few of them. -/

namespace Sys2Proof

/-- An instruction is its opcode byte and its operand bytes (30_encoding.md R60). -/
theorem Instr.length_sub_one (i : Instr) : i.length - 1 = i.operandBytes.length := by
  cases i <;> rfl

theorem Instr.operandBytes_length_le (i : Instr) : i.operandBytes.length ≤ 2 := by
  cases i with
  | ldi | mul | add | cmp => exact Nat.le_refl 2
  | prn | push | pop | call | jmp | jeq | jne => exact Nat.le_succ 1
  | hlt | ret => exact Nat.zero_le 2

end Sys2Proof

namespace Sys2Proof.Machine

theorem decodeOne_missing (build : Byte → Instr) {operands : List Byte} (h : operands.length < 1) :
    decodeOne build operands = .error (.missingOperand (operands.length + 1)) := by
  cases operands with
  | nil => rfl
  | cons r rest => exact absurd h (Nat.not_lt.2 (Nat.le_add_left 1 rest.length))

theorem decodeTwo_missing (build : Byte → Byte → Instr) {operands : List Byte} (h : operands.length < 2) :
    decodeTwo build operands = .error (.missingOperand (operands.length + 1)) := by
  match operands with
  | [] | [_] => rfl
  | a :: b :: rest => exact absurd h (Nat.not_lt.2 (Nat.le_add_left 2 rest.length))

/-- An instruction with too few bytes after its opcode byte is refused for the first that is missing. -/
theorem decode_opcode_missing (i : Instr) {operands : List Byte} (h : operands.length < i.operandBytes.length) :
    decode i.opcode operands = .error (.missingOperand (operands.length + 1)) := by
  cases i with
  | ldi | mul | add | cmp => exact decodeTwo_missing _ h
  | prn | push | pop | call | jmp | jeq | jne => exact decodeOne_missing _ h
  | hlt | ret => exact absurd h (Nat.not_lt_zero _)

variable (s : State)

/-- The fetched bytes: at most two, and none past address 255. -/
theorem fetchOperands_eq_map :
    s.fetchOperands = (List.range (min 2 (255 - s.pc.toNat))).map fun k => s.operand (k + 1) := by
  rcases fetchOperands_cases s with ⟨h, e⟩ | ⟨h, e⟩ | ⟨h, e⟩
  · rw [e, Nat.min_eq_left (by omega)]; rfl
  · rw [e, h]; rfl
  · rw [e, h]; rfl

theorem fetchOperands_length : s.fetchOperands.length = min 2 (255 - s.pc.toNat) := by
  rw [fetchOperands_eq_map, List.length_map, List.length_range]

/-- Operand bytes that stand in memory are the first of the bytes fetched. -/
theorem operandBytes_prefix_fetchOperands (i : Instr) (hroom : s.pc.toNat + i.operandBytes.length ≤ 255)
    (hbytes : ∀ (k : Nat) (h : k < i.operandBytes.length), s.operand (k + 1) = i.operandBytes[k]) :
    i.operandBytes <+: s.fetchOperands := by
  have hle := i.operandBytes_length_le
  refine List.prefix_iff_getElem.2 ⟨by rw [fetchOperands_length]; omega, fun k hk => ?_⟩
  simp only [fetchOperands_eq_map, List.getElem_map, List.getElem_range, hbytes k hk]

/-- Settles O31: the bytes fetched begin with the encoding's operand bytes, or stop at address 255 before the last of them. -/
theorem operandBytesAreFetchedOrFault : Obligations.OperandBytesAreFetchedOrFault := by
  intro s i hs ho
  rw [step_running s hs, State.fetchOpcode, ho, i.length_sub_one]
  refine ⟨fun hroom hbytes => ?_, fun hpast => ?_⟩
  · obtain ⟨rest, e⟩ := operandBytes_prefix_fetchOperands s i hroom hbytes
    rw [← e, decode_opcode_operandBytes]
  · have hpc := s.pc.isLt
    have hle := i.operandBytes_length_le
    have hlength := fetchOperands_length s
    have haddr : s.pc.toNat + (s.fetchOperands.length + 1) = 256 := by omega
    rw [decode_opcode_missing i (by omega)]
    exact (raiseDecode_missing s _).trans (by rw [haddr])

end Sys2Proof.Machine
end

section
/-! The obligation on the PC sequencer (40_cycle.md R86, R87, R89). -/

namespace Sys2Proof.Machine

/-- Settles O39: a safe next state is that of a completed instruction, whose jump goes to the next instruction, which is
below 256, or to the target. -/
theorem nextPcIsSetInOneOfThreeWays : Obligations.NextPcIsSetInOneOfThreeWays := by
  intro i s t _ hexec hsafe
  rcases exec_next_cases hexec with ⟨f, rfl⟩ | c
  · exact absurd rfl (hsafe _)
  · cases c with
    | ldi _ _ h | mul _ _ h | add _ _ h | cmp _ _ h => exact toNat_ofNat_byte _ h
    | prn _ h | push _ _ h | pop _ _ h => exact toNat_ofNat_byte _ h
    | hlt | ret => rfl
    | jmp r | call r => exact ⟨r, rfl, rfl⟩
    | jeqTaken r e => exact (if_pos e).mpr ⟨r, rfl, rfl⟩
    | jeqNotTaken _ e h => exact (if_neg e).mpr (toNat_ofNat_byte _ h)
    | jneTaken r e => exact (if_neg e).mpr ⟨r, rfl, rfl⟩
    | jneNotTaken _ e h => exact (if_pos e).mpr (toNat_ofNat_byte _ h)

end Sys2Proof.Machine
end

section
/-! SUPPORT. The fault of a step, read off its checks: the first of them that fails (60_exceptions.md R166). -/

namespace Sys2Proof.Machine

variable {s : State}

theorem firstFailed_regCheck_ok {p : Position} {v : Byte} (cs : List Check) (h : v.toNat ≤ 7) :
    firstFailed (regCheck p v :: cs) = firstFailed cs := by
  simp [firstFailed, regCheck, h]

theorem firstFailed_regCheck_bad {p : Position} {v : Byte} (cs : List Check) (h : 8 ≤ v.toNat) :
    firstFailed (regCheck p v :: cs) = some (.badRegisterIndex p v) := by
  simp [firstFailed, regCheck, Nat.not_le.2 h]

theorem firstFailed_nextPcCheck_past {len : Nat} (cs : List Check) (h : s.pc.toNat + len = 256) :
    firstFailed (s.nextPcCheck len :: cs) = some (.addressOutOfRange .nextPc 256) := by
  simp [firstFailed, State.nextPcCheck, h]

/-- A RUNNING core with a check that fails takes the fault of the first one. -/
theorem step_of_firstFailed {f : Fault} (hs : s.status = .running) (hf : firstFailed s.checks = some f) :
    step s = .next (s.faultedBy f) := by
  rcases step_follows_checks hs with ⟨g, hg, e⟩ | ⟨hn, -⟩
  · cases hf.symm.trans hg; exact e
  · cases hf.symm.trans hn

end Sys2Proof.Machine
end

section
/-! The obligations on LDI and PRN (41_ldi_prn.md R100, R101, R103). -/

namespace Sys2Proof.Machine

variable {s : State}

theorem checks_ldi (h : s.memRead s.pc = 0x82) :
    s.checks = [s.fetchCheck 1, s.fetchCheck 2, regCheck .byte1 (s.operand 1), s.nextPcCheck 3] := by
  rw [State.checks, h]; rfl

theorem checks_prn (h : s.memRead s.pc = 0x47) :
    s.checks = [s.fetchCheck 1, regCheck .byte1 (s.operand 1), s.nextPcCheck 2] := by
  rw [State.checks, h]; rfl

/-- Settles O14: each fault is that of the first check that fails, and where none does the step is the LDI that the two
operand bytes give. -/
theorem ldiStepEveryCase : Obligations.LdiStepEveryCase := by
  intro s hs ho
  obtain ⟨hmissing, hthere⟩ := step_formatTwo s _ .ldi hs ho fun _ => rfl
  have hfetched : s.pc.toNat ≤ 253 →
      firstFailed s.checks = firstFailed [regCheck .byte1 (s.operand 1), s.nextPcCheck 3] := fun hpc => by
    rw [checks_ldi ho, firstFailed_fetchCheck_ok _ (by omega), firstFailed_fetchCheck_ok _ (by omega)]
  refine ⟨hmissing, fun hpc hbad => ?_, fun hpc hgood => ?_, fun hpc r hr => ?_⟩
  · exact step_of_firstFailed hs ((hfetched hpc).trans (firstFailed_regCheck_bad _ hbad))
  · refine step_of_firstFailed hs ((hfetched (Nat.le_of_eq hpc)).trans ?_)
    rw [firstFailed_regCheck_ok _ hgood, firstFailed_nextPcCheck_past _ (by omega)]
  · rw [hthere (by omega), hr, exec, execLdi_next r _ s (by omega), ofNat_toNat_add]; rfl

/-- Settles O15: each fault is that of the first check that fails, and where none does the step is the PRN that the operand
byte gives. -/
theorem prnStepEveryCase : Obligations.PrnStepEveryCase := by
  intro s hs ho
  obtain ⟨hmissing, hthere⟩ := step_formatR s _ .prn hs ho fun _ => rfl
  have hfetched : s.pc.toNat ≤ 254 →
      firstFailed s.checks = firstFailed [regCheck .byte1 (s.operand 1), s.nextPcCheck 2] := fun hpc => by
    rw [checks_prn ho, firstFailed_fetchCheck_ok _ (by omega)]
  refine ⟨hmissing, fun hpc hbad => ?_, fun hpc hgood => ?_, fun hpc r hr => ?_⟩
  · exact step_of_firstFailed hs ((hfetched hpc).trans (firstFailed_regCheck_bad _ hbad))
  · refine step_of_firstFailed hs ((hfetched (Nat.le_of_eq hpc)).trans ?_)
    rw [firstFailed_regCheck_ok _ hgood, firstFailed_nextPcCheck_past _ (by omega)]
  · rw [hthere (by omega), hr, exec, execPrn_next r s (by omega), ofNat_toNat_add]; rfl

/-- Settles O1: LDI answers the state with one register written and the PC moved on. -/
theorem ldiLoadsImmediate : Obligations.LdiLoadsImmediate := by
  intro r imm s h
  refine ⟨_, execLdi_next r imm s h, ?_, toNat_ofNat_byte _ h, fun j hj => ?_, fun _ => rfl, rfl, rfl, rfl⟩
  · exact s.reg_setReg_same r imm
  · exact s.reg_setReg_ne r j imm (List.ne_of_not_mem_cons hj)

end Sys2Proof.Machine
end

section
/-! SUPPORT. The three ALU instructions as one, by the operation select (42_alu.md R110): their checks and their step are
the same but for what the ALU returns. -/

namespace Sys2Proof.Machine

/-! ### What the ALU returns -/

/-- ADD's result is the sum of two bytes (R111, R113). -/
theorem alu_add (x y : Byte) : alu .add x y = .value (x + y) := by
  rw [alu, BitVec.ofNat_add, BitVec.ofNat_toNat, BitVec.ofNat_toNat, BitVec.setWidth_eq, BitVec.setWidth_eq]

/-- MUL's result is the product of two bytes (R112, R113). -/
theorem alu_mul (x y : Byte) : alu .mul x y = .value (x * y) := by
  rw [alu, BitVec.ofNat_mul, BitVec.ofNat_toNat, BitVec.ofNat_toNat, BitVec.setWidth_eq, BitVec.setWidth_eq]

theorem compareFlag_of_eq {x y : Byte} (h : x.toNat = y.toNat) : compareFlag x y = .equal :=
  if_pos (BitVec.eq_of_toNat_eq h)

theorem compareFlag_of_lt {x y : Byte} (h : x.toNat < y.toNat) : compareFlag x y = .lessThan := by
  rw [compareFlag, if_neg (fun e => Nat.ne_of_lt h (congrArg BitVec.toNat e)), if_pos h]

theorem compareFlag_of_gt {x y : Byte} (h : y.toNat < x.toNat) : compareFlag x y = .greaterThan := by
  rw [compareFlag, if_neg (fun e => Nat.ne_of_gt h (congrArg BitVec.toNat e)), if_neg (Nat.lt_asymm h)]

theorem State.aluWrite_value (w : State) (a : Fin 8) (v : Byte) : w.aluWrite a (.value v) = w.setReg a v := rfl

theorem State.aluWrite_flag (w : State) (a : Fin 8) (f : Flag) : w.aluWrite a (.flag f) = w.setFl f := rfl

/-! ### The instruction of an operation -/

/-- The instruction that asks the ALU for this operation (R110). -/
def AluOp.instr : AluOp → RegByte → RegByte → Instr
  | .add => .add
  | .mul => .mul
  | .cmp => .cmp

/-- The opcode byte of the operation's instruction (30_encoding.md R64). -/
def AluOp.opcode (op : AluOp) : Byte := (op.instr 0 0).opcode

theorem decode_aluOpcode (op : AluOp) (operands : List Byte) :
    decode op.opcode operands = decodeTwo op.instr operands := by
  cases op <;> rfl

theorem exec_aluInstr (op : AluOp) (a b : RegByte) (s : State) :
    exec (op.instr a b) s = commit s op.opcode (aluHandler op a b s) := by
  cases op <;> rfl

theorem exec_aluInstr_next (op : AluOp) (a b : Fin 8) {s : State} (h : s.pc.toNat + 3 ≤ 255) :
    exec (op.instr (regByte a) (regByte b)) s =
      .next ((s.aluWrite a (alu op (s.reg a) (s.reg b))).jump (s.pc + 3)) := by
  rw [exec_aluInstr, aluHandler_ok a b s op h, ofNat_toNat_add]; rfl

theorem checks_aluOpcode (op : AluOp) {s : State} (h : s.memRead s.pc = op.opcode) :
    s.checks = [s.fetchCheck 1, s.fetchCheck 2, regCheck .byte1 (s.operand 1), regCheck .byte2 (s.operand 2),
      s.nextPcCheck 3] := by
  cases op <;> rw [State.checks, h] <;> rfl

/-- Every case of one step at an ALU instruction: each fault is that of the first check that fails, and where none does the
handler writes what the ALU returns. -/
theorem step_alu_every_case (op : AluOp) {s : State} (hs : s.status = .running) (ho : s.memRead s.pc = op.opcode) :
    (254 ≤ s.pc.toNat → step s = .next (s.faultedBy (.addressOutOfRange .operandFetch 256))) ∧
    (s.pc.toNat ≤ 253 → 8 ≤ (s.operand 1).toNat →
      step s = .next (s.faultedBy (.badRegisterIndex .byte1 (s.operand 1)))) ∧
    (s.pc.toNat ≤ 253 → (s.operand 1).toNat ≤ 7 → 8 ≤ (s.operand 2).toNat →
      step s = .next (s.faultedBy (.badRegisterIndex .byte2 (s.operand 2)))) ∧
    (s.pc.toNat = 253 → (s.operand 1).toNat ≤ 7 → (s.operand 2).toNat ≤ 7 →
      step s = .next (s.faultedBy (.addressOutOfRange .nextPc 256))) ∧
    (s.pc.toNat ≤ 252 → ∀ a b : Fin 8, s.operand 1 = regByte a → s.operand 2 = regByte b →
      step s = .next ((s.aluWrite a (alu op (s.reg a) (s.reg b))).jump (s.pc + 3))) := by
  obtain ⟨hmissing, hthere⟩ := step_formatTwo s _ op.instr hs ho (decode_aluOpcode op)
  have hfetched : s.pc.toNat ≤ 253 → firstFailed s.checks =
      firstFailed [regCheck .byte1 (s.operand 1), regCheck .byte2 (s.operand 2), s.nextPcCheck 3] := fun hpc => by
    rw [checks_aluOpcode op ho, firstFailed_fetchCheck_ok _ (by omega), firstFailed_fetchCheck_ok _ (by omega)]
  refine ⟨hmissing, fun hpc hbad => ?_, fun hpc hgood hbad => ?_, fun hpc hgood hgood' => ?_, fun hpc a b ha hb => ?_⟩
  · exact step_of_firstFailed hs ((hfetched hpc).trans (firstFailed_regCheck_bad _ hbad))
  · refine step_of_firstFailed hs ((hfetched hpc).trans ?_)
    rw [firstFailed_regCheck_ok _ hgood, firstFailed_regCheck_bad _ hbad]
  · refine step_of_firstFailed hs ((hfetched (Nat.le_of_eq hpc)).trans ?_)
    rw [firstFailed_regCheck_ok _ hgood, firstFailed_regCheck_ok _ hgood', firstFailed_nextPcCheck_past _ (by omega)]
  · rw [hthere (by omega), ha, hb, exec_aluInstr_next op a b (by omega)]

end Sys2Proof.Machine
end

section
/-! The obligations on ADD, MUL and CMP (42_alu.md R111, R112, R114, R115). -/

namespace Sys2Proof.Machine

/-- Settles O17: the step of an ALU instruction, where the ALU returns the sum. -/
theorem addStepEveryCase : Obligations.AddStepEveryCase := by
  intro s hs ho
  have hcases := step_alu_every_case .add hs ho
  simp only [alu_add, State.aluWrite_value] at hcases
  exact hcases

/-- Settles O18: the step of an ALU instruction, where the ALU returns the product. -/
theorem mulStepEveryCase : Obligations.MulStepEveryCase := by
  intro s hs ho
  have hcases := step_alu_every_case .mul hs ho
  simp only [alu_mul, State.aluWrite_value] at hcases
  exact hcases

/-- Settles O19: the step of an ALU instruction, where the ALU returns the flag of the comparison, by trichotomy. -/
theorem cmpStepEveryCase : Obligations.CmpStepEveryCase := by
  intro s hs ho
  obtain ⟨hmissing, hbad1, hbad2, hnextPc, hdone⟩ := step_alu_every_case .cmp hs ho
  refine ⟨hmissing, hbad1, hbad2, hnextPc, fun hpc a b ha hb => ?_⟩
  rw [hdone hpc a b ha hb, alu, State.aluWrite_flag]
  exact ⟨fun h => by rw [compareFlag_of_eq h], fun h => by rw [compareFlag_of_lt h], fun h => by rw [compareFlag_of_gt h]⟩

/-- Settles O6: CMP answers the state with FL set by the comparison and the PC moved on. -/
theorem cmpSetsFlagOnly : Obligations.CmpSetsFlagOnly := by
  intro a b s h
  exact ⟨_, execCmp_next a b s h, compareFlag_of_eq, compareFlag_of_lt, compareFlag_of_gt, toNat_ofNat_byte _ h,
    fun _ _ => rfl, fun _ => rfl, rfl, rfl⟩

end Sys2Proof.Machine
end

section
/-! SUPPORT. The faults of a step at an instruction of format R, and the checks of SP. -/

namespace Sys2Proof.Machine

variable {s : State}

/-- The faults that instructions of format R have in common, and that a good register byte leaves the fault to the other
checks. -/
theorem step_formatR_faults {cs : List Check} (hs : s.status = .running)
    (hc : s.checks = s.fetchCheck 1 :: regCheck .byte1 (s.operand 1) :: cs) :
    (s.pc.toNat = 255 → step s = .next (s.faultedBy (.addressOutOfRange .operandFetch 256))) ∧
    (s.pc.toNat ≤ 254 → 8 ≤ (s.operand 1).toNat →
      step s = .next (s.faultedBy (.badRegisterIndex .byte1 (s.operand 1)))) ∧
    (s.pc.toNat ≤ 254 → (s.operand 1).toNat ≤ 7 → ∀ f, firstFailed cs = some f → step s = .next (s.faultedBy f)) := by
  have hfetched (hpc : s.pc.toNat ≤ 254) : firstFailed s.checks = firstFailed (regCheck .byte1 (s.operand 1) :: cs) := by
    rw [hc, firstFailed_fetchCheck_ok _ (by omega)]
  refine ⟨fun hpc => ?_, fun hpc hbad => ?_, fun hpc hgood f hf => ?_⟩
  · exact step_of_firstFailed hs (by rw [hc, firstFailed_fetchCheck_missing _ (by omega)])
  · exact step_of_firstFailed hs ((hfetched hpc).trans (firstFailed_regCheck_bad _ hbad))
  · exact step_of_firstFailed hs ((hfetched hpc).trans ((firstFailed_regCheck_ok _ hgood).trans hf))

theorem firstFailed_decCheck_ok (cs : List Check) (h : s.sp ≠ 0) : firstFailed (s.decCheck :: cs) = firstFailed cs :=
  if_pos (decide_eq_true h)

theorem firstFailed_decCheck_zero (cs : List Check) (h : s.sp = 0) :
    firstFailed (s.decCheck :: cs) = some (.stackPointerOutOfRange 0 .decrement) := by
  simp [firstFailed, State.decCheck, h]

theorem firstFailed_incCheck_ok {v : Byte} (cs : List Check) (h : v ≠ 255) :
    firstFailed (incCheck v :: cs) = firstFailed cs :=
  if_pos (decide_eq_true h)

theorem firstFailed_incCheck_max {v : Byte} (cs : List Check) (h : v = 255) :
    firstFailed (incCheck v :: cs) = some (.stackPointerOutOfRange 255 .increment) := by
  simp [firstFailed, incCheck, h]

theorem regByte_toNat_le (r : Fin 8) : (regByte r).toNat ≤ 7 := by
  rw [regByte_toNat]
  exact Nat.le_of_lt_succ r.isLt

/-- The byte 7 names SP (10_state.md R21). -/
theorem regByte_eq_seven_iff {r : Fin 8} : regByte r = 7 ↔ r = 7 := regByte_inj (k := 7)

end Sys2Proof.Machine
end

section
/-! SUPPORT. The states that PUSH and POP leave, in bytes (43_stack.md R130, R132). -/

namespace Sys2Proof.Machine

variable {r : Fin 8} {s t : State}

/-- The byte PUSH r stores: x[r] read after the decrement, so PUSH R7 stores the new SP (R130). -/
def State.pushedByte (s : State) (r : Fin 8) : Byte := if r = 7 then s.sp - 1 else s.reg r

/-- The state a PUSH r leaves when it completes. -/
def State.afterPush (s : State) (r : Fin 8) : State :=
  ((s.setSp (s.sp - 1)).memWrite (s.sp - 1) (s.pushedByte r)).jump (s.pc + 2)

/-- The SP that POP r increments: x[7] read after the write of x[r], so the popped byte for POP R7 (R132). -/
def State.poppedSp (s : State) (r : Fin 8) : Byte := if r = 7 then s.memRead s.sp else s.sp

/-- The state a POP r leaves when it completes. -/
def State.afterPop (s : State) (r : Fin 8) : State :=
  ((s.setReg r (s.memRead s.sp)).setSp (s.poppedSp r + 1)).jump (s.pc + 2)

theorem State.poppedSp_of_ne (h : r ≠ 7) : s.poppedSp r = s.sp := if_neg h

theorem State.afterPop_of_ne (h : r ≠ 7) :
    s.afterPop r = ((s.setReg r (s.memRead s.sp)).setSp (s.sp + 1)).jump (s.pc + 2) := by
  rw [State.afterPop, State.poppedSp_of_ne h]

/-- POP R7: the write of the popped byte does not outlive the increment (R132). -/
theorem State.afterPop_seven (s : State) : s.afterPop 7 = (s.setSp (s.memRead s.sp + 1)).jump (s.pc + 2) :=
  congrArg (fun w : State => w.jump (s.pc + 2)) (s.setReg_setReg_same spIndex _ _)

theorem exec_push_next (hsp : 1 ≤ s.sp.toNat) (hpc : s.pc.toNat + 2 ≤ 255) :
    exec (.push (regByte r)) s = .next (s.afterPush r) := by
  rw [exec, execPush_next r s hsp hpc, ofNat_toNat_sub_one _ hsp, ofNat_toNat_add, State.reg_setSp]; rfl

theorem exec_pop_next (hsp : (s.poppedSp r).toNat + 1 ≤ 255) (hpc : s.pc.toNat + 2 ≤ 255) :
    exec (.pop (regByte r)) s = .next (s.afterPop r) := by
  rw [exec, execPop_next r s hsp hpc, ofNat_toNat_add, ofNat_toNat_add]; rfl

/-- An instruction that leaves the core RUNNING has completed. -/
theorem completed_of_running {i : Instr} (h : exec i s = .next t) (ht : t.status = .running) : Completed s i t := by
  rcases exec_next_cases h with ⟨f, rfl⟩ | c
  · cases ht
  · exact c

theorem Completed.eq_afterPush (c : Completed s (.push (regByte r)) t) : t = s.afterPush r := by
  have hexec := c.exec_eq
  generalize e : Instr.push (regByte r) = i at c
  cases c with
  | push k hsp hpc => exact Host.Outcome.next.inj (hexec.symm.trans (exec_push_next hsp hpc))
  | _ => cases e

theorem Completed.eq_afterPop (c : Completed s (.pop (regByte r)) t) : t = s.afterPop r := by
  have hexec := c.exec_eq
  generalize e : Instr.pop (regByte r) = i at c
  cases c with
  | pop k hsp hpc =>
    obtain rfl : r = k := regByte_injective (Instr.pop.inj e)
    exact Host.Outcome.next.inj (hexec.symm.trans (exec_pop_next hsp hpc))
  | _ => cases e

theorem State.afterPush_sp (s : State) (r : Fin 8) : (s.afterPush r).sp = s.sp - 1 := s.setSp_sp (s.sp - 1)

theorem State.afterPush_reg_ne {j : Fin 8} (h : j ≠ 7) : (s.afterPush r).reg j = s.reg j :=
  s.reg_setReg_ne spIndex j _ h

/-- The byte a PUSH stored is the one that the new SP points to. -/
theorem State.afterPush_memRead_sp (hwf : s.mem.wf) : (s.afterPush r).memRead (s.afterPush r).sp = s.pushedByte r := by
  rw [State.afterPush_sp]
  exact State.memRead_memWrite_same (s.setSp _) _ _ hwf

theorem State.afterPop_memRead (s : State) (r : Fin 8) (a : Byte) : (s.afterPop r).memRead a = s.memRead a := rfl

theorem State.afterPop_sp (s : State) (r : Fin 8) : (s.afterPop r).sp = s.poppedSp r + 1 := State.setSp_sp _ _

theorem State.afterPop_reg_ne {j : Fin 8} (h : j ≠ 7) :
    (s.afterPop r).reg j = if j = r then s.memRead s.sp else s.reg j :=
  (State.reg_setReg_ne _ spIndex j _ h).trans (s.reg_setReg r j _)

end Sys2Proof.Machine
end

section
/-! The obligations on PUSH and POP (43_stack.md R130, R132, R133). -/

namespace Sys2Proof.Machine

variable {s : State}

theorem checks_push (h : s.memRead s.pc = 0x45) :
    s.checks = [s.fetchCheck 1, regCheck .byte1 (s.operand 1), s.decCheck, s.nextPcCheck 2] := by
  rw [State.checks, h]; rfl

theorem checks_pop (h : s.memRead s.pc = 0x46) :
    s.checks = [s.fetchCheck 1, regCheck .byte1 (s.operand 1),
      incCheck (if s.operand 1 = 7 then s.memRead s.sp else s.sp), s.nextPcCheck 2] := by
  rw [State.checks, h]; rfl

/-- Settles O20: each fault is that of the first check that fails, and where none does the step is the PUSH that the operand
byte gives. -/
theorem pushStepEveryCase : Obligations.PushStepEveryCase := by
  intro s hs ho
  obtain ⟨-, hthere⟩ := step_formatR s _ .push hs ho fun _ => rfl
  obtain ⟨hmissing, hbad, hlater⟩ := step_formatR_faults hs (checks_push ho)
  refine ⟨hmissing, hbad, fun hpc hgood hsp => ?_, fun hpc hgood hsp => ?_, fun hpc hsp r hr => ?_⟩
  · exact hlater hpc hgood _ (firstFailed_decCheck_zero _ hsp)
  · refine hlater (Nat.le_of_eq hpc) hgood _ ?_
    rw [firstFailed_decCheck_ok _ hsp, firstFailed_nextPcCheck_past _ (by omega)]
  · rw [hthere (by omega), hr, exec_push_next (one_le_toNat_of_ne_zero hsp) (by omega)]; rfl

/-- Settles O21: as for PUSH, where the SP that is checked and incremented is the popped byte for POP R7. -/
theorem popStepEveryCase : Obligations.PopStepEveryCase := by
  intro s hs ho
  obtain ⟨-, hthere⟩ := step_formatR s _ .pop hs ho fun _ => rfl
  obtain ⟨hmissing, hbad, hlater⟩ := step_formatR_faults hs (checks_pop ho)
  have hfault (r : Fin 8) (hr : s.operand 1 = regByte r) (hpc : s.pc.toNat ≤ 254) (f : Fault)
      (hf : firstFailed [incCheck (s.poppedSp r), s.nextPcCheck 2] = some f) : step s = .next (s.faultedBy f) := by
    refine hlater hpc (hr ▸ regByte_toNat_le r) f ?_
    simp only [hr, regByte_eq_seven_iff]
    exact hf
  have hdone (r : Fin 8) (hr : s.operand 1 = regByte r) (hpc : s.pc.toNat ≤ 253) (hsp : s.poppedSp r ≠ 255) :
      step s = .next (s.afterPop r) := by
    rw [hthere (by omega), hr, exec_pop_next (toNat_succ_le_of_ne_max hsp) (by omega)]
  refine ⟨hmissing, hbad, fun hpc r hr hsp => ?_, fun hpc r hr hsp => ?_, fun hpc r hr hne hsp => ?_,
    fun hpc hr hsp => ?_⟩
  · exact hfault r hr hpc _ (firstFailed_incCheck_max _ hsp)
  · refine hfault r hr (Nat.le_of_eq hpc) _ ((firstFailed_incCheck_ok _ hsp).trans ?_)
    exact firstFailed_nextPcCheck_past _ (by omega)
  · rw [hdone r hr hpc (State.poppedSp_of_ne hne ▸ hsp), State.afterPop_of_ne hne]
  · rw [hdone 7 hr hpc hsp, State.afterPop_seven]

/-- The SP that a POP r after a PUSH r increments is the SP that the PUSH left, also for R7: the byte popped into it is the
SP that the PUSH stored (R133). -/
theorem State.poppedSp_afterPush (r : Fin 8) (hwf : s.mem.wf) : (s.afterPush r).poppedSp r = s.sp - 1 := by
  rw [State.poppedSp, State.afterPush_memRead_sp hwf, State.afterPush_sp, State.pushedByte]
  split <;> rfl

/-- Settles O51: neither instruction faulted, so both completed. SP is the one the PUSH left plus 1, `x[r]` is the byte that
was pushed, and neither instruction writes another register. -/
theorem pushThenPopPutsBack : Obligations.PushThenPopPutsBack := by
  intro r s t u hwf _ hpush ht hpop hu
  obtain rfl := (completed_of_running hpush ht).eq_afterPush
  obtain rfl := (completed_of_running hpop hu).eq_afterPop
  refine ⟨fun j => ?_, State.afterPop_memRead _ r _⟩
  by_cases hj : j = 7
  · subst hj
    calc ((s.afterPush r).afterPop r).sp
        = s.sp - 1 + 1 := by rw [State.afterPop_sp, State.poppedSp_afterPush r hwf]
      _ = s.sp := BitVec.sub_add_cancel _ _
  · rw [State.afterPop_reg_ne hj, State.afterPush_memRead_sp hwf, State.afterPush_reg_ne hj]
    split
    · next e => rw [State.pushedByte, ← e, if_neg hj]
    · rfl

end Sys2Proof.Machine
end

section
/-! The obligation on telling LESS_THAN from GREATER_THAN (44_control.md R146): `State.FlAlike` is kept by every step. -/

namespace Sys2Proof.Machine

variable {i : Instr} {s t : State} {f : Flag}

/-- Alike states are a state and the same state with another flag, both or neither of the two flags EQUAL. -/
theorem State.flAlike_iff : s.FlAlike t ↔ ∃ f, t = s.setFl f ∧ (s.fl = .equal ↔ f = .equal) :=
  ⟨fun ⟨ht, hf⟩ => ⟨t.fl, ht, hf⟩, by rintro ⟨f, rfl, hf⟩; exact ⟨rfl, hf⟩⟩

theorem State.FlAlike.refl (s : State) : s.FlAlike s := ⟨rfl, Iff.rfl⟩

theorem State.flAlike_setFl (hf : s.fl = .equal ↔ f = .equal) : s.FlAlike (s.setFl f) := ⟨rfl, hf⟩

/-- No check asks more of FL than whether it is EQUAL. -/
theorem execChecks_setFl_alike (hf : s.fl = .equal ↔ f = .equal) (i : Instr) :
    (s.setFl f).execChecks i = s.execChecks i := by
  cases i with
  | jeq r | jne r => simp only [State.execChecks, State.setFl_fl, hf]; rfl
  | _ => exact execChecks_setFl f rfl

/-- With an alike flag an instruction completes in an alike state: the jumps are taken alike, and the others do not read
FL. -/
theorem Completed.setFl_alike (c : Completed s i t) (hf : s.fl = .equal ↔ f = .equal) :
    ∃ u, Completed (s.setFl f) i u ∧ t.FlAlike u := by
  cases hi : readsFl i with
  | false =>
    obtain ⟨u, c', rfl | ⟨rfl, hfl⟩⟩ := c.of_setFl f hi
    · exact ⟨u, c', .refl u⟩
    · exact ⟨_, c', State.flAlike_setFl (hfl ▸ hf)⟩
  | true =>
    cases c with
    | jeqTaken r e => exact ⟨_, .jeqTaken r (hf.1 e), State.flAlike_setFl hf⟩
    | jeqNotTaken r e h => exact ⟨_, .jeqNotTaken r (mt hf.2 e) h, State.flAlike_setFl hf⟩
    | jneTaken r e => exact ⟨_, .jneTaken r (mt hf.2 e), State.flAlike_setFl hf⟩
    | jneNotTaken r e h => exact ⟨_, .jneNotTaken r (hf.1 e) h, State.flAlike_setFl hf⟩
    | _ => cases hi

/-- A handler answers alike states in alike states: both take the same fault, or both complete. -/
theorem exec_flAlike (h : s.FlAlike t) (i : Instr) :
    ∃ u v, exec i s = .next u ∧ exec i t = .next v ∧ u.FlAlike v := by
  obtain ⟨f, rfl, hf⟩ := State.flAlike_iff.1 h
  rcases exec_of_execChecks_eq (execChecks_setFl_alike hf i) with ⟨g, e, e'⟩ | ⟨u, c⟩
  · exact ⟨_, _, e, e', rfl, hf⟩
  · obtain ⟨v, c', huv⟩ := c.setFl_alike hf
    exact ⟨u, v, c.exec_eq, c'.exec_eq, huv⟩

/-- The bytes at the PC do not depend on FL, so alike states run the same instruction, or take the same fault of bytes that
are none. -/
theorem step_flAlike (h : s.FlAlike t) : ∃ u v, step s = .next u ∧ step t = .next v ∧ u.FlAlike v := by
  obtain ⟨f, rfl, hf⟩ := State.flAlike_iff.1 h
  by_cases hs : s.status = .running
  · have hdecode : decode (s.setFl f).fetchOpcode (s.setFl f).fetchOperands = decode s.fetchOpcode s.fetchOperands := rfl
    rw [step_running s hs, step_running (s.setFl f) hs, hdecode]
    cases decode s.fetchOpcode s.fetchOperands with
    | ok i => exact exec_flAlike h i
    | error e => exact ⟨_, _, rfl, rfl, rfl, hf⟩
  · exact ⟨_, _, step_stopped s hs, step_stopped (s.setFl f) hs, h⟩

/-- Runs of the same length from alike states end in alike states. -/
theorem run_flAlike (h : s.FlAlike t) (n : Nat) :
    ∃ u v : State, Sys2Proof.core.run n s = .next u ∧ Sys2Proof.core.run n t = .next v ∧ u.FlAlike v := by
  induction n generalizing s t with
  | zero => exact ⟨s, t, rfl, rfl, h⟩
  | succ n ih =>
    obtain ⟨s', t', hs, ht, h'⟩ := step_flAlike h
    rw [run_succ n s s' hs, run_succ n t t' ht]
    exact ih h'

theorem Flag.ne_equal_iff : f ≠ .equal ↔ f = .clear ∨ f = .lessThan ∨ f = .greaterThan := by cases f <;> simp

/-- Settles O54: the two jumps by whether FL is EQUAL, and runs by induction on their length. -/
theorem noProgramTellsLessFromGreater : Obligations.NoProgramTellsLessFromGreater := by
  refine ⟨fun r s hpc => ?_, fun n s t h => run_flAlike h n⟩
  rw [← Flag.ne_equal_iff]
  by_cases e : s.fl = .equal
  · exact ⟨_, _, execJeq_taken r s e, execJne_not_taken r s e hpc, fun _ => ⟨rfl, toNat_ofNat_byte _ hpc⟩, absurd e⟩
  · exact ⟨_, _, execJeq_not_taken r s e hpc, execJne_taken r s e, (absurd · e), fun _ => ⟨toNat_ofNat_byte _ hpc, rfl⟩⟩

end Sys2Proof.Machine
end

section
/-! SUPPORT. The states that CALL and RET leave, in bytes (44_control.md R143, R145). -/

namespace Sys2Proof.Machine

variable {r : Fin 8} {s t : State}

/-- The state a CALL r leaves when it completes: x[r] is read after the push, so CALL R7 jumps to the new SP (R143). -/
def State.afterCall (s : State) (r : Fin 8) : State :=
  ((s.setSp (s.sp - 1)).memWrite (s.sp - 1) (s.pc + 2)).jump (if r = 7 then s.sp - 1 else s.reg r)

/-- The state a RET leaves when it completes. -/
def State.afterRet (s : State) : State := (s.setSp (s.sp + 1)).jump (s.memRead s.sp)

theorem exec_call_next (hpc : s.pc.toNat + 2 ≤ 255) (hsp : 1 ≤ s.sp.toNat) :
    exec (.call (regByte r)) s = .next (s.afterCall r) := by
  rw [exec, execCall_next r s hpc hsp, ofNat_toNat_sub_one _ hsp, ofNat_toNat_add, State.reg_setSp]; rfl

theorem exec_ret_next (hsp : s.sp ≠ 255) : exec .ret s = .next s.afterRet := by
  rw [exec, execRet_next s (toNat_succ_le_of_ne_max hsp), ofNat_toNat_add]; rfl

/-- A CALL that completes passed the checks of its return address and of SP. -/
theorem Completed.call_inversion (c : Completed s (.call (regByte r)) t) :
    s.pc.toNat + 2 ≤ 255 ∧ s.sp ≠ 0 ∧ t = s.afterCall r := by
  have hexec := c.exec_eq
  generalize e : Instr.call (regByte r) = i at c
  cases c with
  | call k hpc hsp =>
    refine ⟨hpc, fun h => ?_, Host.Outcome.next.inj (hexec.symm.trans (exec_call_next hpc hsp))⟩
    rw [h] at hsp
    exact absurd hsp (by decide)
  | _ => cases e

theorem State.afterCall_sp (s : State) (r : Fin 8) : (s.afterCall r).sp = s.sp - 1 := s.setSp_sp (s.sp - 1)

/-- The byte at the SP that a CALL left is its return address. -/
theorem State.afterCall_memRead_sp (hwf : s.mem.wf) : (s.afterCall r).memRead (s.afterCall r).sp = s.pc + 2 := by
  rw [State.afterCall_sp]
  exact State.memRead_memWrite_same (s.setSp _) _ _ hwf

theorem State.afterRet_sp (s : State) : s.afterRet.sp = s.sp + 1 := State.setSp_sp _ _

end Sys2Proof.Machine
end

section
/-! SUPPORT. The step at an instruction without operand bytes, and at a conditional jump, by whether it is taken. -/

namespace Sys2Proof.Machine

variable {s : State}

/-- An instruction without operand bytes runs wherever it stands. -/
theorem step_formatNone (op : Byte) (i : Instr) (hs : s.status = .running) (ho : s.memRead s.pc = op)
    (hd : ∀ operands, decode op operands = .ok i) : step s = exec i s := by
  rw [step_running s hs, State.fetchOpcode, ho, hd]

/-- Every case of a conditional jump: only a jump that is not taken needs a next PC (44_control.md R147, R148). -/
theorem step_branch_every_case (op : Byte) (build : Byte → Instr) (taken : Bool) (hs : s.status = .running)
    (ho : s.memRead s.pc = op) (hd : ∀ operands, decode op operands = decodeOne build operands)
    (hc : s.checks = s.fetchCheck 1 :: regCheck .byte1 (s.operand 1) :: if taken then [] else [s.nextPcCheck 2])
    (hexec : ∀ r : Fin 8, exec (build (regByte r)) s = commit s op (branch taken r s)) :
    (s.pc.toNat = 255 → step s = .next (s.faultedBy (.addressOutOfRange .operandFetch 256))) ∧
    (s.pc.toNat ≤ 254 → 8 ≤ (s.operand 1).toNat →
      step s = .next (s.faultedBy (.badRegisterIndex .byte1 (s.operand 1)))) ∧
    (s.pc.toNat ≤ 254 → taken = true → ∀ r : Fin 8, s.operand 1 = regByte r → step s = .next (s.jump (s.reg r))) ∧
    (s.pc.toNat = 254 → taken = false → (s.operand 1).toNat ≤ 7 →
      step s = .next (s.faultedBy (.addressOutOfRange .nextPc 256))) ∧
    (s.pc.toNat ≤ 253 → taken = false → (s.operand 1).toNat ≤ 7 → step s = .next (s.jump (s.pc + 2))) := by
  obtain ⟨-, hthere⟩ := step_formatR s op build hs ho hd
  obtain ⟨hmissing, hbad, hlater⟩ := step_formatR_faults hs hc
  refine ⟨hmissing, hbad, fun hpc ht r hr => ?_, fun hpc ht hgood => ?_, fun hpc ht hgood => ?_⟩
  · rw [hthere hpc, hr, hexec, ht, branch_taken, commit_ok]
  · refine hlater (Nat.le_of_eq hpc) hgood _ ?_
    rw [ht]
    exact firstFailed_nextPcCheck_past _ (by omega)
  · obtain ⟨r, hr⟩ := exists_regByte_of_le _ hgood
    rw [hthere (by omega), hr, hexec, ht, branch_not_taken r s (by omega), commit_ok, ofNat_toNat_add]; rfl

end Sys2Proof.Machine
end

section
/-! The obligations on HLT, CALL, RET, JMP, JEQ and JNE (44_control.md R140, R142 to R145, R147, R148). -/

namespace Sys2Proof.Machine

variable {s : State}

theorem checks_call (h : s.memRead s.pc = 0x50) :
    s.checks = [s.fetchCheck 1, regCheck .byte1 (s.operand 1), s.returnCheck, s.decCheck] := by
  rw [State.checks, h]; rfl

theorem checks_ret (h : s.memRead s.pc = 0x11) : s.checks = [incCheck s.sp] := by rw [State.checks, h]; rfl

theorem checks_jmp (h : s.memRead s.pc = 0x54) : s.checks = [s.fetchCheck 1, regCheck .byte1 (s.operand 1)] := by
  rw [State.checks, h]; rfl

theorem checks_jeq (h : s.memRead s.pc = 0x55) :
    s.checks = s.fetchCheck 1 :: regCheck .byte1 (s.operand 1) ::
      if s.fl.isEqual then [] else [s.nextPcCheck 2] := by
  rw [State.checks, h]
  cases s.fl <;> rfl

theorem checks_jne (h : s.memRead s.pc = 0x56) :
    s.checks = s.fetchCheck 1 :: regCheck .byte1 (s.operand 1) ::
      if !s.fl.isEqual then [] else [s.nextPcCheck 2] := by
  rw [State.checks, h]
  cases s.fl <;> rfl

theorem firstFailed_returnCheck_ok (cs : List Check) (h : s.pc.toNat + 2 ≤ 255) :
    firstFailed (s.returnCheck :: cs) = firstFailed cs :=
  if_pos (decide_eq_true h)

theorem firstFailed_returnCheck_past (cs : List Check) (h : s.pc.toNat + 2 = 256) :
    firstFailed (s.returnCheck :: cs) = some (.addressOutOfRange .returnAddress 256) := by
  simp [firstFailed, State.returnCheck, h]

/-- Settles O22: each fault is that of the first check that fails, and where none does the step is the CALL that the operand
byte gives. -/
theorem callStepEveryCase : Obligations.CallStepEveryCase := by
  intro s hs ho
  obtain ⟨-, hthere⟩ := step_formatR s _ .call hs ho fun _ => rfl
  obtain ⟨hmissing, hbad, hlater⟩ := step_formatR_faults hs (checks_call ho)
  refine ⟨hmissing, hbad, fun hpc hgood => ?_, fun hpc hgood hsp => ?_, fun hpc hsp r hr => ?_⟩
  · exact hlater (Nat.le_of_eq hpc) hgood _ (firstFailed_returnCheck_past _ (by omega))
  · refine hlater (by omega) hgood _ ?_
    rw [firstFailed_returnCheck_ok _ (by omega), firstFailed_decCheck_zero _ hsp]
  · rw [hthere (by omega), hr, exec_call_next (by omega) (one_le_toNat_of_ne_zero hsp)]; rfl

/-- Settles O23: the one check of RET, and the RET where it passes. -/
theorem retStepEveryCase : Obligations.RetStepEveryCase := by
  intro s hs ho
  refine ⟨fun hsp => step_of_firstFailed hs ?_, fun hsp => ?_⟩
  · rw [checks_ret ho, firstFailed_incCheck_max _ hsp]
  · rw [step_formatNone _ .ret hs ho fun _ => rfl, exec_ret_next hsp]; rfl

/-- Settles O24: after the operand byte is fetched and found good there is nothing left to check, at PC 254 too. -/
theorem jmpStepEveryCase : Obligations.JmpStepEveryCase := by
  intro s hs ho
  obtain ⟨-, hthere⟩ := step_formatR s _ .jmp hs ho fun _ => rfl
  obtain ⟨hmissing, hbad, -⟩ := step_formatR_faults hs (checks_jmp ho)
  exact ⟨hmissing, hbad, fun hpc r hr => by rw [hthere hpc, hr, exec, execJmp_regByte]⟩

/-- Settles O25: the conditional jump that is taken on EQUAL. -/
theorem jeqStepEveryCase : Obligations.JeqStepEveryCase := by
  intro s hs ho
  obtain ⟨hmissing, hbad, htaken, hnextPc, hon⟩ :=
    step_branch_every_case _ .jeq s.fl.isEqual hs ho (fun _ => rfl) (checks_jeq ho) fun r => execJeq_regByte r s
  exact ⟨hmissing, hbad, fun hpc e => htaken hpc ((Flag.isEqual_iff _).2 e),
    fun hpc e => hnextPc hpc (Flag.isEqual_eq_false e), fun hpc e => hon hpc (Flag.isEqual_eq_false e)⟩

/-- Settles O26: the conditional jump that is taken on everything but EQUAL. -/
theorem jneStepEveryCase : Obligations.JneStepEveryCase := by
  intro s hs ho
  obtain ⟨hmissing, hbad, htaken, hnextPc, hon⟩ :=
    step_branch_every_case _ .jne (!s.fl.isEqual) hs ho (fun _ => rfl) (checks_jne ho) fun r => execJne_regByte r s
  have hne (e : s.fl ≠ .equal) : (!s.fl.isEqual) = true := congrArg not (Flag.isEqual_eq_false e)
  have heq (e : s.fl = .equal) : (!s.fl.isEqual) = false := congrArg not ((Flag.isEqual_iff _).2 e)
  exact ⟨hmissing, hbad, fun hpc e => htaken hpc (hne e), fun hpc e => hnextPc hpc (heq e), fun hpc e => hon hpc (heq e)⟩

/-- Settles O52: the CALL completed, so SP was not 0 and the SP it left is not 255; the RET completes and takes the stored
return address, which did not wrap, and SP moves up to where it was. -/
theorem callThenRetReturns : Obligations.CallThenRetReturns := by
  intro r s t u hwf _ hcall ht hu hsp hcell
  obtain ⟨hpc, hne, rfl⟩ := (completed_of_running hcall ht).call_inversion
  rw [State.afterCall_memRead_sp hwf] at hcell
  rw [State.afterCall_sp] at hsp
  have hback : u.sp + 1 = s.sp := by rw [hsp]; exact BitVec.sub_add_cancel _ _
  have hmax : u.sp ≠ 255 := fun h => hne (by rw [← hback, h]; rfl)
  refine ⟨u.afterRet, exec_ret_next hmax, hu, ?_, u.afterRet_sp.trans hback⟩
  calc u.afterRet.pc.toNat
      = (s.pc + 2).toNat := congrArg BitVec.toNat hcell
    _ = s.pc.toNat + 2 := by rw [← toNat_ofNat_byte _ hpc, ofNat_toNat_add]; rfl

/-- Settles O16: HLT has no operand byte to fetch and no check to fail, and a HALTED core stays as it is. -/
theorem hltStepEveryCase : Obligations.HltStepEveryCase := by
  intro s hs ho
  have hstopped : s.halt.status ≠ .running := by simp
  refine ⟨?_, rfl, fun n t h => ?_⟩
  · rw [step_formatNone _ .hlt hs ho fun _ => rfl, exec, execHlt_next]; rfl
  · exact (Host.Outcome.next.inj ((run_stopped hstopped n).symm.trans h)).symm

end Sys2Proof.Machine
end

section
/-! SUPPORT. The fault of a handler and the fault in a step's next state, read off the checks, and what the fault of a check
can be. -/

namespace Sys2Proof.Machine

variable {i : Instr} {s t : State} {f : Fault} {r : FaultRecord}

/-- A handler with a check that fails takes the fault of the first one. -/
theorem exec_of_firstFailed (hf : firstFailed (s.execChecks i) = some f) : exec i s = .next (s.faultedAt i f) := by
  rcases exec_follows_checks i s with ⟨g, hg, e⟩ | ⟨hn, -⟩
  · cases hf.symm.trans hg; exact e
  · cases hf.symm.trans hn

/-- A completed instruction has not faulted a RUNNING core. -/
theorem Completed.status_ne_faulted (c : Completed s i t) (hs : s.status = .running) (r : FaultRecord) :
    t.status ≠ .faulted r := by
  rw [c.status_eq, hs]
  split <;> nofun

/-- The fault that a handler leaves a RUNNING core in is that of one of its checks. -/
theorem exec_faulted_inversion (hs : s.status = .running) (h : exec i s = .next t) (ht : t.status = .faulted r) :
    firstFailed (s.execChecks i) = some r.fault := by
  rcases exec_follows_checks i s with ⟨f, hf, e⟩ | ⟨-, u, c⟩
  · cases e.symm.trans h; cases ht; exact hf
  · cases c.exec_eq.symm.trans h
    exact absurd ht (c.status_ne_faulted hs r)

/-- A step that faults a RUNNING core takes the fault of one of its checks and changes the status alone. -/
theorem step_faulted_inversion (hs : s.status = .running) (h : step s = .next t) (ht : t.status = .faulted r) :
    ∃ f, firstFailed s.checks = some f ∧ t = s.faultedBy f ∧ r = { pc := s.pc, ir := s.memRead s.pc, fault := f } := by
  rcases step_follows_checks hs with ⟨f, hf, e⟩ | ⟨-, i, u, -, c, e⟩
  · cases e.symm.trans h; cases ht
    exact ⟨f, hf, rfl, rfl⟩
  · cases e.symm.trans h
    exact absurd ht (c.status_ne_faulted hs r)

/-- The fault reported is that of one of the checks. -/
theorem exists_check_of_firstFailed {cs : List Check} (h : firstFailed cs = some f) : ∃ c ∈ cs, c.fault = f := by
  induction cs with
  | nil => cases h
  | cons c cs ih =>
    rw [firstFailed] at h
    split at h
    · obtain ⟨d, hd, e⟩ := ih h
      exact ⟨d, List.mem_cons_of_mem c hd, e⟩
    · exact ⟨c, List.mem_cons_self, Option.some.inj h⟩

@[simp] theorem regCheck_fault (p : Position) (v : Byte) : (regCheck p v).fault = .badRegisterIndex p v := rfl

@[simp] theorem State.nextPcCheck_fault (s : State) (len : Nat) :
    (s.nextPcCheck len).fault = .addressOutOfRange .nextPc (s.pc.toNat + len) := rfl

@[simp] theorem State.returnCheck_fault (s : State) :
    s.returnCheck.fault = .addressOutOfRange .returnAddress (s.pc.toNat + 2) := rfl

@[simp] theorem State.decCheck_fault (s : State) : s.decCheck.fault = .stackPointerOutOfRange s.sp .decrement := rfl

@[simp] theorem incCheck_fault (v : Byte) : (incCheck v).fault = .stackPointerOutOfRange v .increment := rfl

/-! ### Legal info -/

/-- The check of `cs` that fails first, if one does, gives a record legal info (60_exceptions.md R160). -/
def FailsLegally (cs : List Check) : Prop :=
  ∀ f, firstFailed cs = some f → ∀ pc ir : Byte, FaultRecord.Legal { pc := pc, ir := ir, fault := f }

variable {cs : List Check}

theorem FailsLegally.nil : FailsLegally [] := nofun

/-- A check in front: its own info counts if it fails, and the later checks if it passes. -/
theorem FailsLegally.cons {p : Prop} [Decidable p]
    (hfail : ¬ p → ∀ pc ir : Byte, FaultRecord.Legal { pc := pc, ir := ir, fault := f })
    (hpass : p → FailsLegally cs) : FailsLegally (⟨decide p, f⟩ :: cs) := by
  intro g hg
  by_cases h : p
  · exact hpass h g (by simpa [firstFailed, h] using hg)
  · obtain rfl : f = g := by simpa [firstFailed, h] using hg
    exact hfail h

/-- The first address that does not exist is 256, once the one before it is known to exist (R162). -/
theorem FailsLegally.fetch {k : Nat} (hprev : s.pc.toNat + k ≤ 255)
    (hpass : s.pc.toNat + (k + 1) ≤ 255 → FailsLegally cs) : FailsLegally (s.fetchCheck (k + 1) :: cs) :=
  .cons (fun h _ _ => show s.pc.toNat + (k + 1) = 256 by omega) hpass

theorem FailsLegally.reg {p : Position} {v : Byte} (hpass : FailsLegally cs) : FailsLegally (regCheck p v :: cs) :=
  .cons (fun h _ _ => Nat.lt_of_not_le h) fun _ => hpass

theorem FailsLegally.lastNextPc {k : Nat} (hprev : s.pc.toNat + k ≤ 255) : FailsLegally [s.nextPcCheck (k + 1)] :=
  .cons (fun h _ _ => show s.pc.toNat + (k + 1) = 256 by omega) fun _ => .nil

theorem FailsLegally.returnAddress (hprev : s.pc.toNat + 1 ≤ 255) (hpass : FailsLegally cs) :
    FailsLegally (s.returnCheck :: cs) :=
  .cons (fun h _ _ => show s.pc.toNat + 2 = 256 by omega) fun _ => hpass

theorem FailsLegally.dec (hpass : FailsLegally cs) : FailsLegally (s.decCheck :: cs) :=
  .cons (fun h _ _ => Classical.not_not.1 h) fun _ => hpass

theorem FailsLegally.inc {v : Byte} (hpass : FailsLegally cs) : FailsLegally (incCheck v :: cs) :=
  .cons (fun h _ _ => Classical.not_not.1 h) fun _ => hpass

/-- The opcode byte itself is in memory, and in each instruction's checks the bytes from there up to the last one it needs
are asked for in order, so the first that is missing is at 256. -/
theorem checks_failLegally (s : State) : FailsLegally s.checks := by
  have h0 : s.pc.toNat + 0 ≤ 255 := Nat.le_of_lt_succ s.pc.isLt
  have formatRR : FailsLegally [s.fetchCheck 1, s.fetchCheck 2, regCheck .byte1 (s.operand 1),
      regCheck .byte2 (s.operand 2), s.nextPcCheck 3] :=
    .fetch h0 fun h1 => .fetch h1 fun h2 => .reg <| .reg <| .lastNextPc h2
  unfold State.checks
  split
  · exact .fetch h0 fun h1 => .fetch h1 fun h2 => .reg <| .lastNextPc h2
  · exact .fetch h0 fun h1 => .reg <| .lastNextPc h1
  · exact .nil
  · exact formatRR
  · exact formatRR
  · exact .fetch h0 fun h1 => .reg <| .dec <| .lastNextPc h1
  · exact .fetch h0 fun h1 => .reg <| .inc <| .lastNextPc h1
  · exact .fetch h0 fun h1 => .reg <| .returnAddress h1 <| .dec .nil
  · exact .inc .nil
  · exact .fetch h0 fun _ => .reg .nil
  · exact formatRR
  · refine .fetch h0 fun h1 => .reg ?_
    split
    · exact .nil
    · exact .lastNextPc h1
  · refine .fetch h0 fun h1 => .reg ?_
    split
    · exact .lastNextPc h1
    · exact .nil
  · intro f hf
    cases hf
    exact fun _ _ => trivial

end Sys2Proof.Machine
end

section
/-! The obligations on the faults (60_exceptions.md R160, R163, R165, R166, R177). -/

namespace Sys2Proof.Machine

variable {i : Instr} {s : State}

/-- The register bytes are checked before everything else that an instruction checks itself (R166). -/
theorem execChecks_eq_regChecks_append (i : Instr) (s : State) :
    ∃ own, s.execChecks i = (i.regBytes.map fun pr => regCheck pr.1 pr.2) ++ own := by
  cases i <;> exact ⟨_, rfl⟩

/-- Of a list of register bytes the first that is above 7 fails its check. -/
theorem firstFailed_regChecks {bytes : List (Position × RegByte)} {p : Position} {v : Byte} (cs : List Check)
    (h : (bytes.find? fun pr => decide (7 < pr.2.toNat)) = some (p, v)) :
    firstFailed ((bytes.map fun pr => regCheck pr.1 pr.2) ++ cs) = some (.badRegisterIndex p v) := by
  induction bytes with
  | nil => cases h
  | cons pr bytes ih =>
    rw [List.map_cons, List.cons_append]
    by_cases hbad : 7 < pr.2.toNat
    · simp only [List.find?_cons, hbad, decide_true] at h
      cases h
      exact firstFailed_regCheck_bad _ hbad
    · simp only [List.find?_cons, hbad, decide_false] at h
      rw [firstFailed_regCheck_ok _ (Nat.le_of_not_lt hbad)]
      exact ih h

/-- Settles O33: the checks of the register bytes come first in those of the handler. -/
theorem firstBadRegisterByteIsReported : Obligations.FirstBadRegisterByteIsReported := by
  intro i s p v h
  obtain ⟨own, e⟩ := execChecks_eq_regChecks_append i s
  exact exec_of_firstFailed (e ▸ firstFailed_regChecks own h)

/-- Settles O34: a step follows the checks, and the status after it is read off them too. -/
theorem firstFailedCheckIsReported : Obligations.FirstFailedCheckIsReported := by
  intro s hs
  cases hf : firstFailed s.checks with
  | some f => exact step_of_firstFailed hs hf
  | none =>
    rcases step_follows_checks hs with ⟨f, hf', -⟩ | ⟨-, i, t, -, -, e⟩
    · cases hf.symm.trans hf'
    · have hstatus := status_after_step hs e
      rw [hf] at hstatus
      exact ⟨t, e, hstatus⟩

theorem faultExitStatus_ne_zero : Config.faultExitStatus ≠ 0 := by
  unfold Config.faultExitStatus
  split
  · exact Int.negSucc_ne_zero _
  · exact Int.ofNat_ne_zero.2 (Nat.succ_ne_zero _)

/-- Settles O35: the fault is that of the first check that fails, which gives legal info. -/
theorem faultsArePrecise : Obligations.FaultsArePrecise := by
  refine ⟨fun s t r hs h ht => ?_, faultExitStatus_ne_zero, fun _ _ _ _ _ _ => ⟨rfl, rfl, rfl, rfl, rfl⟩⟩
  obtain ⟨f, hf, rfl, rfl⟩ := step_faulted_inversion hs h ht
  exact ⟨rfl, rfl, rfl, checks_failLegally s f hf _ _, rfl⟩

/-- No check of a handler is one of the ALU's select (R165). -/
theorem execChecks_fault_ne_alu (n : Nat) : ∀ c ∈ s.execChecks i, c.fault ≠ .unrecognizedALUOperation n := by
  cases i with
  | jeq r | jne r => unfold State.execChecks; split <;> simp
  | _ => simp [State.execChecks]

/-- Settles O36: the fault of a handler is that of one of its checks, and the fault of a step is legal, which the ALU's is
not. -/
theorem aluFaultIsUnreachable : Obligations.AluFaultIsUnreachable := by
  refine ⟨fun i s t r n hs h ht e => ?_, fun s t r n hs h ht e => ?_⟩
  · obtain ⟨c, hc, hfault⟩ := exists_check_of_firstFailed (exec_faulted_inversion hs h ht)
    exact execChecks_fault_ne_alu n c hc (hfault.trans e)
  · obtain ⟨f, hf, -, rfl⟩ := step_faulted_inversion hs h ht
    cases e
    exact checks_failLegally s _ hf s.pc (s.memRead s.pc)

/-- Settles O56: by the definition of the exit status; FAULT_EXIT_STATUS is not 0 with either sign. -/
theorem exitStatusFollowsStatus : Obligations.ExitStatusFollowsStatus :=
  ⟨rfl, fun _ => rfl, faultExitStatus_ne_zero, rfl⟩

end Sys2Proof.Machine
end

section
/-! The obligations on the decoder and the encoder together (30_encoding.md R60, R68), and on the step that runs what the
decoder reads (40_cycle.md R86, R90). -/

namespace Sys2Proof.Machine

/-- Bytes that decode to an instruction begin with its operand bytes; what follows them is not looked at. -/
theorem operandBytes_prefix_of_decode {i : Instr} {operands : List Byte} (h : decode i.opcode operands = .ok i) :
    i.operandBytes <+: operands := by
  cases i with
  | ldi | mul | add | cmp =>
    obtain ⟨_, _, rest, rfl, e⟩ := (decodeTwo_eq_ok _ _ _).1 h
    cases e
    exact ⟨rest, rfl⟩
  | prn | push | pop | call | jmp | jeq | jne =>
    obtain ⟨_, rest, rfl, e⟩ := (decodeOne_eq_ok _ _ _).1 h
    cases e
    exact ⟨rest, rfl⟩
  | hlt | ret => exact List.nil_prefix

/-- The decoder reads an instruction exactly where the bytes begin with its encoding. -/
theorem decode_eq_ok_iff {op : Byte} {operands : List Byte} {i : Instr} :
    decode op operands = .ok i ↔ ∃ rest, op :: operands = encode i ++ rest := by
  constructor
  · intro h
    obtain rfl := opcode_of_decode h
    obtain ⟨rest, e⟩ := operandBytes_prefix_of_decode h
    exact ⟨rest, by rw [← e]; rfl⟩
  · rintro ⟨rest, e⟩
    obtain ⟨rfl, rfl⟩ := List.cons.inj e
    exact decode_opcode_operandBytes i rest

/-- Settles O28: the opcode byte read is that of the instruction, and the operand bytes are the first of those that follow. -/
theorem decodesExactlyItsEncoding : Obligations.DecodesExactlyItsEncoding := fun _ _ _ => decode_eq_ok_iff

/-- The patterns of 30_encoding.md R62 hold of every instruction. -/
theorem opcodePatterns (i : Instr) : Laws.OpcodePatterns.Statement i := by
  cases i with
  | ldi r imm => exact Laws.OpcodePatterns.ldi r imm
  | prn r => exact Laws.OpcodePatterns.prn r
  | hlt => exact Laws.OpcodePatterns.hlt
  | mul a b => exact Laws.OpcodePatterns.mul a b
  | add a b => exact Laws.OpcodePatterns.add a b
  | push r => exact Laws.OpcodePatterns.push r
  | pop r => exact Laws.OpcodePatterns.pop r
  | call r => exact Laws.OpcodePatterns.call r
  | ret => exact Laws.OpcodePatterns.ret
  | jmp r => exact Laws.OpcodePatterns.jmp r
  | cmp a b => exact Laws.OpcodePatterns.cmp a b
  | jeq r => exact Laws.OpcodePatterns.jeq r
  | jne r => exact Laws.OpcodePatterns.jne r

theorem encode_length (i : Instr) : (encode i).length = i.length := by
  obtain ⟨-, -, -, hlength⟩ := opcodePatterns i
  exact hlength.symm

/-- Bits 7:6 of the opcode byte, the number of operand bytes, give the length. -/
theorem length_eq_opcode_bits (i : Instr) : i.length = (i.opcode.extractLsb' 6 2).toNat + 1 := by
  obtain ⟨hbits, -, -, hlength⟩ := opcodePatterns i
  rw [hlength, hbits]

/-- An encoding with bytes after it decodes to its instruction alone, so it is never that of two. -/
theorem eq_of_encode_append_eq {i j : Instr} {u v : List Byte} (h : encode i ++ u = encode j ++ v) : i = j := by
  have hi : decode i.opcode (i.operandBytes ++ u) = .ok i := decode_eq_ok_iff.2 ⟨u, rfl⟩
  have hj : decode i.opcode (i.operandBytes ++ u) = .ok j := decode_eq_ok_iff.2 ⟨v, h⟩
  exact Except.ok.inj (hi.symm.trans hj)

/-- Settles O29: the decoder is a function of the bytes, and the length one of the opcode byte. -/
theorem encodingsAreUnambiguous : Obligations.EncodingsAreUnambiguous := by
  refine ⟨fun i j u v h => ?_, encode_length, fun i j h => ?_⟩
  · obtain rfl := eq_of_encode_append_eq h
    exact ⟨rfl, List.append_cancel_left h⟩
  · rw [length_eq_opcode_bits i, h, length_eq_opcode_bits j]

/-- Settles O30: the step of a RUNNING core is what it makes of the decoder's answer. -/
theorem stepRunsDecodedInstruction : Obligations.StepRunsDecodedInstruction := fun s i hs hd => by
  rw [step_running s hs, hd]

end Sys2Proof.Machine
end

section
/-! The obligations on the invariant and on reset (10_state.md R35, 44_control.md R140, 60_exceptions.md R160,
70_reset_and_hazards.md R181). -/

namespace Sys2Proof.Machine

variable {i : Instr} {s t : State}

/-- A RUNNING core meets the invariant when its memory is in canonical form. -/
theorem State.inv_of_running (hwf : s.mem.wf) (hs : s.status = .running) : s.Inv where
  memWf := hwf
  haltedAtHlt h := by cases hs.symm.trans h
  recordAtPc r h := by cases hs.symm.trans h

/-- A completed instruction keeps the canonical form: a store is to an address that a byte can hold. -/
theorem Completed.mem_wf (c : Completed s i t) (hwf : s.mem.wf) : t.mem.wf := by
  obtain e | ⟨_, v, e, -⟩ := c.mem_eq_or_stores
  · rwa [e]
  · rw [e]
    exact Memory.wf_set _ _ v (Byte.toNat_lt_memSize t.sp) hwf

/-- The fault of a step names the PC, the byte there and, as the first check that fails, has legal info. -/
theorem State.inv_faultedBy {f : Fault} (hwf : s.mem.wf) (hf : firstFailed s.checks = some f) : (s.faultedBy f).Inv where
  memWf := hwf
  haltedAtHlt := nofun
  recordAtPc r h := by
    obtain rfl := Status.faulted.inj h
    exact ⟨rfl, rfl, checks_failLegally s f hf _ _⟩

/-- An instruction that completes leaves a RUNNING core, or is the HLT that the PC stays at. -/
theorem Completed.inv (c : Completed s i t) (hs : s.status = .running) (hop : i.opcode = s.memRead s.pc)
    (hwf : s.mem.wf) : t.Inv := by
  by_cases hi : i = .hlt
  · subst hi
    cases c
    exact ⟨hwf, fun _ => hop.symm, nofun⟩
  · exact State.inv_of_running (c.mem_wf hwf) (by rw [c.status_eq, if_neg hi, hs])

/-- Settles O47: a stopped core stays as it is, and a RUNNING one takes the fault of its first failed check or completes. -/
theorem stepKeepsInvariant : Obligations.StepKeepsInvariant := by
  intro s t hinv h
  by_cases hs : s.status = .running
  · rcases step_follows_checks hs with ⟨f, hf, e⟩ | ⟨-, i, u, hop, c, e⟩
    · obtain rfl := Host.Outcome.next.inj (e.symm.trans h)
      exact State.inv_faultedBy hinv.memWf hf
    · obtain rfl := Host.Outcome.next.inj (e.symm.trans h)
      exact c.inv hs hop hinv.memWf
  · obtain rfl := Host.Outcome.next.inj ((step_stopped s hs).symm.trans h)
    exact hinv

/-- A launch that is not refused places the image in the reset state. -/
theorem launch_next_inversion {image : List Byte} (h : launch image = .next s) : s = State.reset.placeBytes 0 image := by
  unfold launch at h
  split at h
  · exact (Host.Outcome.next.inj h).symm
  · cases h

/-- The launch of an image leaves a RUNNING core with canonical memory. -/
theorem launch_inv {image : List Byte} (h : launch image = .next s) : s.Inv := by
  obtain rfl := launch_next_inversion h
  exact State.inv_of_running (State.placeBytes_mem_wf image _ 0 State.reset_mem_wf) (by rw [State.placeBytes_frame]; rfl)

/-- State.reset is the launch of the empty image (log 3). -/
theorem launch_nil : launch [] = .next State.reset := rfl

/-- Settles O48: reset is a launch too. -/
theorem resetAndLaunchMeetInvariant : Obligations.ResetAndLaunchMeetInvariant :=
  ⟨launch_inv launch_nil, fun _ _ h => launch_inv h⟩

/-- Settles O49: the fields of State.reset; no cell is listed, so each reads as an unlisted one. -/
theorem resetHoldsTheStatedValues : Obligations.ResetHoldsTheStatedValues := by
  have hregs : ∀ i : Fin 8, State.reset.reg i = if i = spIndex then 0xF4 else 0 := by decide
  exact ⟨hregs, rfl, rfl, rfl, rfl, fun _ => rfl, launch_nil⟩

end Sys2Proof.Machine
end

section
/-! The obligations on the handlers of PRN, HLT, ADD and MUL: result and frame (41_ldi_prn.md R103, 44_control.md R140,
42_alu.md R111 to R113). -/

namespace Sys2Proof.Machine

/-- Settles O2: PRN answers the state with one value emitted and the PC moved on. -/
theorem prnEmitsRegister : Obligations.PrnEmitsRegister := by
  intro r s h
  exact ⟨_, execPrn_next r s h, rfl, toNat_ofNat_byte _ h, fun _ _ => rfl, fun _ => rfl, rfl, rfl⟩

/-- Settles O3: HLT answers the halted state. -/
theorem hltOnlyHalts : Obligations.HltOnlyHalts := fun s =>
  ⟨s.halt, execHlt_next s, s.halt_status, s.halt_pc, fun _ _ => rfl, fun _ => rfl, rfl, rfl⟩

/-- The next PC as a number, where it is in memory. -/
theorem toNat_add_ofNat {b : Byte} {n : Nat} (h : b.toNat + n ≤ 255) : (b + BitVec.ofNat 8 n).toNat = b.toNat + n := by
  rw [← ofNat_toNat_add, toNat_ofNat_byte _ h]

/-- An ALU instruction whose result is a value writes it to the first register and moves the PC on. -/
theorem exec_alu_value_result_and_frame (op : AluOp) (a b : Fin 8) {s : State} {v : Byte}
    (hv : alu op (s.reg a) (s.reg b) = .value v) (h : s.pc.toNat + 3 ≤ 255) :
    ∃ t, exec (op.instr (regByte a) (regByte b)) s = .next t ∧ t.reg a = v ∧ t.pc.toNat = s.pc.toNat + 3 ∧
      s.RegsSameExcept t [a] ∧ s.MemSame t ∧ s.FlStatusOutSame t := by
  refine ⟨(s.setReg a v).jump (s.pc + 3), ?_, s.reg_setReg_same a v, toNat_add_ofNat h, fun j hj => ?_,
    fun _ => rfl, rfl, rfl, rfl⟩
  · rw [exec_aluInstr_next op a b h, hv, State.aluWrite_value]
  · exact s.reg_setReg_ne a j v (List.ne_of_not_mem_cons hj)

/-- Settles O4: the ALU instruction whose result is the sum. -/
theorem addWrapsIntoFirstRegister : Obligations.AddWrapsIntoFirstRegister := by
  intro a b s h
  obtain ⟨t, hexec, hreg, hframe⟩ := exec_alu_value_result_and_frame .add a b (alu_add _ _) h
  exact ⟨t, hexec, by rw [hreg, BitVec.toNat_add], hframe⟩

/-- Settles O5: the ALU instruction whose result is the product. -/
theorem mulWrapsIntoFirstRegister : Obligations.MulWrapsIntoFirstRegister := by
  intro a b s h
  obtain ⟨t, hexec, hreg, hframe⟩ := exec_alu_value_result_and_frame .mul a b (alu_mul _ _) h
  exact ⟨t, hexec, by rw [hreg, BitVec.toNat_mul], hframe⟩

end Sys2Proof.Machine
end

section
/-! The obligations on the handlers of PUSH, POP, CALL, RET and the jumps: result and frame (43_stack.md R130, R132,
44_control.md R142, R143, R145 to R148). -/

namespace Sys2Proof.Machine

variable {r : Fin 8} {s : State}

/-- The SP that a push leaves, in bytes. -/
theorem decSp_eq (h : 1 ≤ s.sp.toNat) : decSp s = .ok (s.setSp (s.sp - 1)) := by
  rw [decSp_ok s h, ofNat_toNat_sub_one _ h]

theorem toNat_sub_one_add_one {b : Byte} (h : 1 ≤ b.toNat) : (b - 1).toNat + 1 = b.toNat := by
  have hb := b.isLt
  rw [← ofNat_toNat_sub_one b h, toNat_ofNat_byte _ (by omega)]
  omega

/-- A store at the new SP leaves every other byte alone. -/
theorem State.memSameExcept_stack_store (s : State) (sp v pc : Byte) :
    s.MemSameExcept (((s.setSp sp).memWrite sp v).jump pc) sp :=
  fun a ha => (s.setSp sp).memRead_memWrite_ne sp a v ha

/-- A write to SP leaves every other register alone. -/
theorem State.regsSameExcept_setSp (s : State) (v : Byte) : s.RegsSameExcept (s.setSp v) [spIndex] :=
  fun j hj => s.reg_setReg_ne spIndex j v (List.ne_of_not_mem_cons hj)

/-- Settles O7: PUSH answers `State.afterPush`. -/
theorem pushStoresAtNewSp : Obligations.PushStoresAtNewSp := by
  intro r s hsp hpc
  have hw : (s.setSp (s.sp - 1)).sp = (s.afterPush r).sp := by rw [State.setSp_sp, State.afterPush_sp]
  refine ⟨_, s.afterPush r, decSp_eq hsp, exec_push_next hsp hpc, ?_, hw, fun hwf => ?_, ?_, toNat_add_ofNat hpc,
    s.regsSameExcept_setSp _, rfl, rfl, rfl⟩
  · rw [State.afterPush_sp, toNat_sub_one_add_one hsp]
  · rw [hw, State.afterPush_memRead_sp hwf, State.afterPush_sp]; rfl
  · rw [State.setSp_sp]
    exact s.memSameExcept_stack_store _ _ _

/-- Settles O8: POP answers `State.afterPop`. -/
theorem popLoadsFromSp : Obligations.PopLoadsFromSp := by
  intro r s hsp hpc
  have hsp' : (s.afterPop r).sp.toNat = (s.poppedSp r).toNat + 1 := by
    rw [State.afterPop_sp]
    exact toNat_add_ofNat hsp
  refine ⟨s.afterPop r, exec_pop_next hsp hpc, fun hr => ⟨?_, ?_⟩, fun hr => ?_, toNat_add_ofNat hpc,
    fun j hj => ?_, State.afterPop_memRead s r, rfl, rfl, rfl⟩
  · rw [State.afterPop_reg_ne hr, if_pos rfl]
  · rw [hsp', State.poppedSp_of_ne hr]
  · rw [hsp', show s.poppedSp r = s.memRead s.sp from if_pos hr]
  · obtain ⟨hr, hj⟩ := List.ne_and_not_mem_of_not_mem_cons hj
    rw [State.afterPop_reg_ne (List.ne_of_not_mem_cons hj), if_neg hr]

/-- Settles O9: CALL answers `State.afterCall`. -/
theorem callPushesReturnAddress : Obligations.CallPushesReturnAddress := by
  intro r s hpc hsp
  have hw : (s.setSp (s.sp - 1)).sp = (s.afterCall r).sp := by rw [State.setSp_sp, State.afterCall_sp]
  refine ⟨_, s.afterCall r, decSp_eq hsp, exec_call_next hpc hsp, ?_, hw, fun hwf => ?_, ?_, ?_,
    s.regsSameExcept_setSp _, rfl, rfl, rfl⟩
  · rw [State.afterCall_sp, toNat_sub_one_add_one hsp]
  · rw [hw, State.afterCall_memRead_sp hwf]
    exact toNat_add_ofNat hpc
  · rw [State.setSp_sp]
    exact s.memSameExcept_stack_store _ _ _
  · rw [State.afterCall_sp]; rfl

/-- Settles O10: RET answers `State.afterRet`. -/
theorem retPopsPc : Obligations.RetPopsPc := by
  intro s hsp
  have hne : s.sp ≠ 255 := fun e => by rw [e] at hsp; exact absurd hsp (by decide)
  refine ⟨s.afterRet, exec_ret_next hne, rfl, ?_, s.regsSameExcept_setSp _, fun _ => rfl, rfl, rfl, rfl⟩
  rw [State.afterRet_sp]
  exact toNat_add_ofNat hsp

/-- What a jump changes is the PC. -/
theorem State.jump_frame (s : State) (a : Byte) :
    s.RegsSameExcept (s.jump a) [] ∧ s.MemSame (s.jump a) ∧ s.FlStatusOutSame (s.jump a) :=
  ⟨fun _ _ => rfl, fun _ => rfl, rfl, rfl, rfl⟩

/-- Settles O11: JMP is the jump to x[r]. -/
theorem jmpSetsPcOnly : Obligations.JmpSetsPcOnly := fun r s =>
  ⟨_, execJmp_regByte r s, rfl, s.jump_frame _⟩

/-- Settles O12: JEQ is the jump to x[r] on EQUAL and the jump to the next instruction otherwise. -/
theorem jeqJumpsOnEqual : Obligations.JeqJumpsOnEqual := by
  intro r s hpc
  by_cases e : s.fl = .equal
  · exact ⟨_, execJeq_taken r s e, fun _ => rfl, absurd e, s.jump_frame _⟩
  · exact ⟨_, execJeq_not_taken r s e (hpc e), (absurd · e), fun _ => toNat_ofNat_byte _ (hpc e), s.jump_frame _⟩

/-- Settles O13: JNE is the jump to the next instruction on EQUAL and the jump to x[r] otherwise. -/
theorem jneJumpsUnlessEqual : Obligations.JneJumpsUnlessEqual := by
  intro r s hpc
  by_cases e : s.fl = .equal
  · exact ⟨_, execJne_not_taken r s e (hpc e), absurd e, fun _ => toNat_ofNat_byte _ (hpc e), s.jump_frame _⟩
  · exact ⟨_, execJne_taken r s e, fun _ => rfl, (absurd · e), s.jump_frame _⟩

end Sys2Proof.Machine
end

section
/-! The obligations on runs (44_control.md R142, 60_exceptions.md R160, 40_cycle.md R90): that there always is a next state,
and that a state that is its own next state stays. -/

namespace Sys2Proof.Machine

variable {s : State}

/-- Every handler answers a state: it takes a fault, which is one, or completes. -/
theorem exists_exec_eq_next (i : Instr) (s : State) : ∃ t, exec i s = .next t := by
  rcases exec_cases i s with ⟨f, e⟩ | ⟨t, c⟩
  · exact ⟨_, e⟩
  · exact ⟨t, c.exec_eq⟩

/-- Every step answers a state. -/
theorem exists_step_eq_next (s : State) : ∃ t, step s = .next t := by
  by_cases hs : s.status = .running
  · rw [step_running s hs]
    cases decode s.fetchOpcode s.fetchOperands with
    | ok i => exact exists_exec_eq_next i s
    | error e => exact ⟨_, rfl⟩
  · exact ⟨s, step_stopped s hs⟩

/-- Settles O38: runs by induction on their length. -/
theorem everyRunAnswersAState : Obligations.EveryRunAnswersAState := by
  refine ⟨exists_exec_eq_next, fun n => ?_⟩
  induction n with
  | zero => exact fun s => ⟨s, rfl⟩
  | succ n ih =>
    intro s
    obtain ⟨t, h⟩ := exists_step_eq_next s
    rw [run_succ n s t h]
    exact ih t

/-- A state that a step leaves as it is stays for any number of steps. -/
theorem run_of_step_eq_self (h : step s = .next s) (n : Nat) : Sys2Proof.core.run n s = .next s := by
  induction n with
  | zero => rfl
  | succ n ih => rw [run_succ n s s h, ih]

/-- A jump to where the PC is changes nothing. -/
theorem State.jump_pc_self (s : State) : s.jump s.pc = s := rfl

/-- Settles O55: the JMP of R142 answers the state it began in. -/
theorem jumpToItselfRunsForEver : Obligations.JumpToItselfRunsForEver := by
  intro r s n hs ho hpc hr htarget
  obtain ⟨-, -, hjump⟩ := jmpStepEveryCase s hs ho
  exact run_of_step_eq_self (by rw [hjump hpc r hr, htarget, State.jump_pc_self]) n

end Sys2Proof.Machine
end

section
/-! The obligation on fetching a byte that was pushed (20_memory.md R53). -/

namespace Sys2Proof.Machine

variable {r : Fin 8} {s t : State}

/-- The operand byte at an address is the byte a read gives there. -/
theorem operandByte_of_add_eq {k : Nat} {a : Byte} (h : s.pc.toNat + k = a.toNat) :
    s.operandByte k = some (s.memRead a) := by
  rw [operandByte_some s k (by have := a.isLt; omega), State.operand, h]; rfl

/-- Wherever the fetch reads the cell at SP, as the opcode byte or as an operand byte, it gives the byte there. -/
theorem fetch_at_sp {v : Byte} (h : t.memRead t.sp = v) :
    (t.pc = t.sp → t.fetchOpcode = v) ∧ ∀ k, t.pc.toNat + k = t.sp.toNat → t.operandByte k = some v :=
  ⟨fun e => by rw [State.fetchOpcode, e, h], fun _ e => by rw [operandByte_of_add_eq e, h]⟩

/-- After a PUSH r the byte stored is what x[r] holds, R7 included. -/
theorem State.afterPush_reg (s : State) (r : Fin 8) : (s.afterPush r).reg r = s.pushedByte r :=
  s.reg_setSp r _

/-- Settles O46: the PUSH or CALL completed, and the byte it stored is at the SP it left. -/
theorem fetchSeesThePushedByte : Obligations.FetchSeesThePushedByte := by
  intro i s t hwf _ h ht
  refine ⟨?_, ?_⟩ <;> rintro r rfl
  · obtain rfl := (completed_of_running h ht).eq_afterPush
    exact fetch_at_sp (by rw [State.afterPush_memRead_sp hwf, State.afterPush_reg])
  · obtain ⟨hpc, -, rfl⟩ := (completed_of_running h ht).call_inversion
    obtain ⟨hopcode, hoperand⟩ := fetch_at_sp (State.afterCall_memRead_sp (r := r) hwf)
    exact ⟨fun e => by rw [hopcode e]; exact toNat_add_ofNat hpc, fun k e => by rw [hoperand k e, ofNat_toNat_add]; rfl⟩

end Sys2Proof.Machine
end

section
/-! The obligation on repeated addition (42_alu.md R117). -/

namespace Sys2Proof.Machine

variable {a b : Fin 8} {s t : State}

theorem addTimes_succ {x y : RegByte} {n : Nat} (h : exec (.add x y) (s.jump 0) = .next t) :
    addTimes x y (n + 1) s = addTimes x y n t := by
  rw [addTimes, show ({ s with pc := 0 } : State) = s.jump 0 from rfl, h]

/-- Each ADD adds `x[b]`, which it leaves alone, to `x[a]`. -/
theorem exists_addTimes_eq (hab : a ≠ b) (n : Nat) (s : State) :
    ∃ u, addTimes (regByte a) (regByte b) n s = some u ∧ u.reg a = s.reg a + BitVec.ofNat 8 n * s.reg b := by
  induction n generalizing s with
  | zero => exact ⟨s, rfl, by simp⟩
  | succ n ih =>
    have hpc : (0 : Byte).toNat + 3 ≤ 255 := by decide
    obtain ⟨t, hexec, ha, -, hregs, -⟩ :=
      exec_alu_value_result_and_frame (s := s.jump 0) .add a b (alu_add _ _) hpc
    have hb : t.reg b = s.reg b := hregs b (by simpa using hab.symm)
    obtain ⟨u, hu, hsum⟩ := ih t
    refine ⟨u, (addTimes_succ hexec).trans hu, ?_⟩
    calc u.reg a
        = s.reg a + s.reg b + BitVec.ofNat 8 n * s.reg b := by rw [hsum, ha, hb]; rfl
      _ = s.reg a + BitVec.ofNat 8 (n + 1) * s.reg b := by
          rw [BitVec.ofNat_add, BitVec.add_mul, BitVec.one_mul, BitVec.add_assoc, BitVec.add_comm (s.reg b)]

/-- Settles O53: `x[c]` additions of `x[b]` to 0 are the product that MUL writes. -/
theorem repeatedAddIsMul : Obligations.RepeatedAddIsMul := by
  intro a b c s hab hzero hpc
  obtain ⟨u, hu, hsum⟩ := exists_addTimes_eq hab (s.reg c).toNat s
  obtain ⟨t, hexec, hprod, -⟩ := exec_alu_value_result_and_frame .mul b c (alu_mul _ _) hpc
  refine ⟨t, u, hu, hexec, ?_⟩
  calc u.reg a
      = 0 + s.reg c * s.reg b := by rw [hsum, hzero, BitVec.ofNat_toNat, BitVec.setWidth_eq]
    _ = s.reg c * s.reg b := BitVec.zero_add _
    _ = t.reg b := by rw [hprod, BitVec.mul_comm]

end Sys2Proof.Machine
end

section
/-! The obligation on the console text (41_ldi_prn.md R104). -/

namespace Sys2Proof.Machine

/-! ### Digits -/

variable {d n : Nat}

theorem digitChar_sub_zero (h : d < 10) : (digitChar d).toNat - 48 = d := by
  revert d; decide

theorem digitChar_range (h : d < 10) : '0' ≤ digitChar d ∧ digitChar d ≤ '9' := by
  revert d; decide

theorem digitChar_eq_zero (h : d < 10) (e : digitChar d = '0') : d = 0 := by
  rw [← digitChar_sub_zero h, e]; rfl

/-! ### Numbers of at most three digits, by how many there are -/

/-- What `ds` reads as: each digit counts ten times as much as the next. -/
def decimalValue (ds : List Char) : Nat := ds.foldl (fun n c => 10 * n + (c.toNat - 48)) 0

/-- Everything the digits of a number below 1000 can be: one of its digits alone, or two or three with the first not 0. -/
theorem decimalDigits_cases (h : n < 1000) :
    (n < 10 ∧ decimalDigits n = [digitChar n]) ∨
    (∃ a b, 0 < a ∧ a < 10 ∧ b < 10 ∧ n = 10 * a + b ∧ decimalDigits n = [digitChar a, digitChar b]) ∨
    (∃ a b c, 0 < a ∧ a < 10 ∧ b < 10 ∧ c < 10 ∧ n = 10 * (10 * a + b) + c ∧
      decimalDigits n = [digitChar a, digitChar b, digitChar c]) := by
  unfold decimalDigits
  by_cases h1 : n < 10
  · exact .inl ⟨h1, if_pos h1⟩
  rw [if_neg h1]; right
  by_cases h2 : n < 100
  · exact .inl ⟨_, _, by omega, by omega, by omega, by omega, if_pos h2⟩
  rw [if_neg h2]
  exact .inr ⟨_, _, _, by omega, by omega, by omega, by omega, by omega, rfl⟩

/-- The digits are the characters 0 to 9. -/
theorem decimalDigits_range (h : n < 1000) : ∀ c ∈ decimalDigits n, '0' ≤ c ∧ c ≤ '9' := by
  rcases decimalDigits_cases h with ⟨hn, e⟩ | ⟨a, b, -, ha, hb, -, e⟩ | ⟨a, b, c, -, ha, hb, hc, -, e⟩ <;> rw [e]
  · simp [digitChar_range hn]
  · simp [digitChar_range ha, digitChar_range hb]
  · simp [digitChar_range ha, digitChar_range hb, digitChar_range hc]

/-- The digits read as the number they were made of. -/
theorem decimalValue_decimalDigits (h : n < 1000) : decimalValue (decimalDigits n) = n := by
  rcases decimalDigits_cases h with ⟨hn, e⟩ | ⟨a, b, -, ha, hb, rfl, e⟩ | ⟨a, b, c, -, ha, hb, hc, rfl, e⟩ <;> rw [e]
  · simp [decimalValue, digitChar_sub_zero hn]
  · simp [decimalValue, digitChar_sub_zero ha, digitChar_sub_zero hb]
  · simp [decimalValue, digitChar_sub_zero ha, digitChar_sub_zero hb, digitChar_sub_zero hc]

theorem decimalDigits_ne_nil (n : Nat) : decimalDigits n ≠ [] := by
  unfold decimalDigits
  split
  · exact List.cons_ne_nil _ _
  · split <;> exact List.cons_ne_nil _ _

/-- Only 0 begins with a 0. -/
theorem decimalDigits_no_leading_zero (h : n < 1000) (h0 : (decimalDigits n).head? = some '0') :
    decimalDigits n = ['0'] := by
  rcases decimalDigits_cases h with ⟨hn, e⟩ | ⟨a, b, hpos, ha, -, -, e⟩ | ⟨a, b, c, hpos, ha, -, -, -, e⟩ <;>
    rw [e] at h0 ⊢ <;> have h0 := Option.some.inj h0
  · rw [h0]
  · exact absurd (digitChar_eq_zero ha h0) (Nat.ne_of_gt hpos)
  · exact absurd (digitChar_eq_zero ha h0) (Nat.ne_of_gt hpos)

/-- Settles O57: a byte is below 1000, and a line is its digits and LF. -/
theorem consoleShowsDecimalLines : Obligations.ConsoleShowsDecimalLines := by
  refine ⟨fun out v => ?_, rfl, fun v => ?_⟩
  · rw [consoleText, List.flatMap_append, List.flatMap_singleton]; rfl
  · have hv : v.toNat < 1000 := Nat.lt_trans v.isLt (by decide)
    exact ⟨decimalDigits v.toNat, rfl, decimalDigits_range hv, decimalValue_decimalDigits hv, decimalDigits_ne_nil _,
      decimalDigits_no_leading_zero hv⟩

end Sys2Proof.Machine
end
